-- ==== Sys2Proof/Word.lean ====
section
/-! DEFINITION. The word and byte types of the block (spec/00_scope.md R8, R13). -/

namespace Sys2Proof

/-- A command, payload or response word, a seed, a hash value: 64 bits (R8: WORD_W, SEED_W, HASH_W). -/
abbrev Word := BitVec 64

/-- One byte of an item (R15). -/
abbrev Byte := BitVec 8

end Sys2Proof
end

