-- ==== Sys2Proof/Syntax.lean ====
section
/-! DEFINITION. The command set BFC-CMD version 1 (spec/30_encoding.md R75, R76; spec/opcode_table.json),
the two units and the error codes (spec/60_exceptions.md R201). -/

namespace Sys2Proof

/-- The two filters of the core (R14): B, the standard filter (`U = 0`), and C, the counting filter (`U = 1`). -/
inductive UnitId where
  | B
  | C
deriving DecidableEq, Repr

/-- The error codes of the core, in the order of the table of R201 (codes 1 to 9). -/
inductive ErrorCode where
  /-- 1, R202: `OP` is 0 or 7 to 15. -/
  | illegalOpcode
  /-- 2, R203: a must-be-zero header field is not zero. -/
  | reservedField
  /-- 3, R204: removal asked of the standard filter. -/
  | noRemove
  /-- 4, R205: `LEN > ITEM_MAX`. -/
  | itemLen
  /-- 5, R206: the unit's `CONSTR` is 0. -/
  | notConstructed
  /-- 6, R207: `CONS` while the unit's `CONSTR` is 1. -/
  | alreadyConstructed
  /-- 7, R208: `CONS` with `M = 0`. -/
  | zeroBits
  /-- 8, R209: `CONS` with `K = 0`. -/
  | zeroHashes
  /-- 9, R210: `CONS` with `M > M_MAX_u`. -/
  | capacity
deriving DecidableEq, Repr

/-- One constructor per row of spec/opcode_table.json. A command on an item carries its `LEN` field and its payload
words, padding included (R74): which bytes of them are the item is `Machine.itemBytes`. -/
inductive Instr where
  /-- `CONS.B m, k, seed_a, seed_b` (R110). -/
  | consB (k : BitVec 8) (m : BitVec 32) (seedA seedB : Word)
  /-- `CONS.C m, k, seed_a, seed_b` (R111). -/
  | consC (k : BitVec 8) (m : BitVec 32) (seedA seedB : Word)
  /-- `DSTR.B` (R112). -/
  | dstrB
  /-- `DSTR.C` (R113). -/
  | dstrC
  /-- `INS.B item` (R151). -/
  | insB (len : BitVec 16) (payload : List Word)
  /-- `INS.C item` (R171). -/
  | insC (len : BitVec 16) (payload : List Word)
  /-- `QRY.B item` (R152). -/
  | qryB (len : BitVec 16) (payload : List Word)
  /-- `QRY.C item` (R172). -/
  | qryC (len : BitVec 16) (payload : List Word)
  /-- `REM.B item`, the refused pair (R76, R204). -/
  | remB (len : BitVec 16) (payload : List Word)
  /-- `REM.C item` (R173). -/
  | remC (len : BitVec 16) (payload : List Word)
  /-- `STAT.B` (R114). -/
  | statB
  /-- `STAT.C` (R115). -/
  | statC
deriving DecidableEq, Repr

end Sys2Proof
end

