-- ==== Sys2Proof/WellFormed.lean ====
section
/-! DEFINITION. Which commands can be sent: a command on an item has exactly `ceil(LEN / 8)` payload words
(spec/30_encoding.md R70, R72, R74). Every value of the other operands has an encoding. -/

namespace Sys2Proof

/-- `payload` has the `ceil(LEN / 8)` words of an item of `len` bytes (R72). -/
def payloadFits (len : BitVec 16) (payload : List Word) : Bool :=
  payload.length == (len.toNat + 7) / 8

/-- The check on one command. -/
def Instr.wf : Instr → Bool
  | .consB _ _ _ _ => true
  | .consC _ _ _ _ => true
  | .dstrB => true
  | .dstrC => true
  | .insB len payload => payloadFits len payload
  | .insC len payload => payloadFits len payload
  | .qryB len payload => payloadFits len payload
  | .qryC len payload => payloadFits len payload
  | .remB len payload => payloadFits len payload
  | .remC len payload => payloadFits len payload
  | .statB => true
  | .statC => true

end Sys2Proof
end

