-- ==== Sys2Proof/Decode.lean ====
section
/-! DEFINITION. The header word, the payload length and the decoder, and after it the encoder
(spec/30_encoding.md R70 to R79). -/

namespace Sys2Proof

/-! ### The header's fields (R71) -/

/-- `H[63:60]`. -/
def opOf (h : Word) : BitVec 4 := h.extractLsb' 60 4
/-- `H[59]`: 0 is unit B, 1 is unit C. -/
def unitOf (h : Word) : UnitId := if h.extractLsb' 59 1 = 0#1 then .B else .C
/-- `H[58:56]`. -/
def rsvOf (h : Word) : BitVec 3 := h.extractLsb' 56 3
/-- `H[55:48]`. -/
def kOf (h : Word) : BitVec 8 := h.extractLsb' 48 8
/-- `H[47:32]`. -/
def lenOf (h : Word) : BitVec 16 := h.extractLsb' 32 16
/-- `H[31:0]`. -/
def mOf (h : Word) : BitVec 32 := h.extractLsb' 0 32

/-- The `U` bit of a unit (R71). -/
def UnitId.bit : UnitId → BitVec 1
  | .B => 0#1
  | .C => 1#1

/-! ### The opcode map (R75) -/

def opCons : BitVec 4 := 1#4
def opDstr : BitVec 4 := 2#4
def opIns : BitVec 4 := 3#4
def opQry : BitVec 4 := 4#4
def opRem : BitVec 4 := 5#4
def opStat : BitVec 4 := 6#4

/-- `OP = 0` and `OP = 7` to `15` are reserved (R78). -/
def opReserved (op : BitVec 4) : Bool := op == 0#4 || 7 ≤ op.toNat

/-- `INS`, `QRY`, `REM`: the operations whose payload is an item (R72). -/
def opHasItem (op : BitVec 4) : Bool := op == opIns || op == opQry || op == opRem

/-- `PayloadWords(H)` (R72): how many words follow a header, whatever else is wrong with the command. -/
def payloadWords (h : Word) : Nat :=
  if opOf h = opCons then 2
  else if opHasItem (opOf h) then ((lenOf h).toNat + 7) / 8
  else 0

/-- `WellFormed(H)` of R77, for a header whose `OP` is 1 to 6: the fields its operation requires to be zero are zero. -/
def fieldsOk (h : Word) : Bool :=
  rsvOf h == 0#3 &&
    (if opOf h = opCons then lenOf h == 0#16
     else if opHasItem (opOf h) then kOf h == 0#8 && mOf h == 0#32
     else kOf h == 0#8 && lenOf h == 0#16 && mOf h == 0#32)

/-! ### The decoder (R79) -/

/-- Why words are no command. The first two are answered with their error codes; the third says that the payload
held is not that of the header, which the front end never leaves (R72). -/
inductive DecodeError where
  | illegalOpcode
  | reservedField
  | payloadCount
deriving DecidableEq, Repr

/-- The payload held for a complete command: its `PayloadWords(H)` words, of which those of an over-long item are
not all kept (10_state R33). -/
def payloadHeld (h : Word) (payload : List Word) : Bool :=
  if opHasItem (opOf h) then decide (payload.length ≤ payloadWords h) else payload.length == payloadWords h

/-- `CONS`: payload word 0 is `SEED_A`, payload word 1 is `SEED_B` (R73). -/
def decodeCons (h : Word) : List Word → Except DecodeError Instr
  | [seedA, seedB] =>
    match unitOf h with
    | .B => .ok (.consB (kOf h) (mOf h) seedA seedB)
    | .C => .ok (.consC (kOf h) (mOf h) seedA seedB)
  | _ => .error .payloadCount

/-- The command of a unit. -/
def forUnit (h : Word) (onB onC : Instr) : Instr :=
  match unitOf h with
  | .B => onB
  | .C => onC

/-- A header and its payload words to a command (R79). The checks `E_NO_REMOVE` and `E_ITEM_LEN`, which R79 puts
next, are the first two of the command's own meaning (`Machine.execRemB`, `Machine.itemCommand`), in that order. -/
def decode (h : Word) (payload : List Word) : Except DecodeError Instr :=
  if opReserved (opOf h) then .error .illegalOpcode
  else if !fieldsOk h then .error .reservedField
  else if !payloadHeld h payload then .error .payloadCount
  else if opOf h = opCons then decodeCons h payload
  else if opOf h = opDstr then .ok (forUnit h .dstrB .dstrC)
  else if opOf h = opIns then .ok (forUnit h (.insB (lenOf h) payload) (.insC (lenOf h) payload))
  else if opOf h = opQry then .ok (forUnit h (.qryB (lenOf h) payload) (.qryC (lenOf h) payload))
  else if opOf h = opRem then .ok (forUnit h (.remB (lenOf h) payload) (.remC (lenOf h) payload))
  else .ok (forUnit h .statB .statC)

/-- The decoder over the words of one command, the header first (R70); none where there is no header or no command. -/
def decodeWords : List Word → Option Instr
  | [] => none
  | h :: payload => (decode h payload).toOption

/-! ### The encoder (R71, R73, R74) -/

/-- `OP U 000 K LEN M`, from bit 63 down (R71). -/
def header (op : BitVec 4) (u : UnitId) (k : BitVec 8) (len : BitVec 16) (m : BitVec 32) : Word :=
  op ++ u.bit ++ 0#3 ++ k ++ len ++ m

/-- The words of a command, the header first. -/
def encode : Instr → List Word
  | .consB k m seedA seedB => [header opCons .B k 0 m, seedA, seedB]
  | .consC k m seedA seedB => [header opCons .C k 0 m, seedA, seedB]
  | .dstrB => [header opDstr .B 0 0 0]
  | .dstrC => [header opDstr .C 0 0 0]
  | .insB len payload => header opIns .B 0 len 0 :: payload
  | .insC len payload => header opIns .C 0 len 0 :: payload
  | .qryB len payload => header opQry .B 0 len 0 :: payload
  | .qryC len payload => header opQry .C 0 len 0 :: payload
  | .remB len payload => header opRem .B 0 len 0 :: payload
  | .remC len payload => header opRem .C 0 len 0 :: payload
  | .statB => [header opStat .B 0 0 0]
  | .statC => [header opStat .C 0 0 0]

/-! ### The host's numbering of an instruction's bits -/

/-- Word number `n` of an instruction whose bits are `w`, bit 0 the least significant bit of the first word. -/
def tableWordAt (w n : Nat) : Word := BitVec.ofNat 64 (w >>> (64 * n))

/-- The header of an instruction of which `nbits` bits are given. -/
def tableHeader (nbits w : Nat) : Word := tableWordAt (w % 2 ^ nbits) 0

/-- Its payload: the `PayloadWords(H)` words after the header; bits above `nbits` are 0. -/
def tablePayload (nbits w : Nat) : List Word :=
  (List.range (payloadWords (tableHeader nbits w))).map fun n => tableWordAt (w % 2 ^ nbits) (n + 1)

/-- The instruction the decoder reads from the bits `w`. -/
def decodeTableWord (nbits w : Nat) : Option Instr :=
  decodeWords (tableHeader nbits w :: tablePayload nbits w)

end Sys2Proof
end

