-- ==== Sys2Proof/Config.lean ====
section
/-! DEFINITION. What one implementation of the block fixes (spec/00_scope.md R9, R12) and the values the spec leaves
free. The constants declared `opaque` have no body: no proof can see what they are, so a theorem about
`Config.hw` holds of every implementation the spec allows. -/

namespace Sys2Proof

/-- The open parameters of R9. -/
structure Config where
  /-- `M_MAX_B`: physical slots of the bit array. -/
  mMaxB : Nat
  /-- `M_MAX_C`: physical slots of the counter bank. -/
  mMaxC : Nat
  /-- `ITEM_MAX`: the largest item length in bytes the core accepts. -/
  itemMax : Nat
  /-- `HASH`: a total function of seed and item, of which nothing else is assumed (R12). -/
  hash : Word → List Byte → Word

/-- The ranges R9 gives. -/
def Config.Legal (cfg : Config) : Prop :=
  (1 ≤ cfg.mMaxB ∧ cfg.mMaxB ≤ 4294967295) ∧ (1 ≤ cfg.mMaxC ∧ cfg.mMaxC ≤ 4294967295) ∧ cfg.itemMax ≤ 65535

/-- `M_MAX` of a unit. -/
def Config.mMax (cfg : Config) : UnitId → Nat
  | .B => cfg.mMaxB
  | .C => cfg.mMaxC

/-- `M_MAX_B - 1` of this implementation (log entry 1). -/
opaque Config.slotsBelowB : Fin 4294967295
/-- `M_MAX_C - 1` of this implementation (log entry 1). -/
opaque Config.slotsBelowC : Fin 4294967295
/-- `ITEM_MAX` of this implementation (log entry 1). -/
opaque Config.itemLimit : Fin 65536
/-- `HASH` of this implementation (log entry 1). -/
opaque Config.hashFn : Word → List Byte → Word

/-- This implementation: each parameter at any value of its range in R9. -/
def Config.hw : Config where
  mMaxB := Config.slotsBelowB.val + 1
  mMaxC := Config.slotsBelowC.val + 1
  itemMax := Config.itemLimit.val
  hash := Config.hashFn

/-- `HASH_T` of the test configuration (R11): `h <- (h * 257 + item[j] + 1) mod 2^64`, from the seed, `item[0]` first. -/
def Config.hashT (seed : Word) (item : List (BitVec 8)) : Word :=
  item.foldl (fun h x => h * 257 + x.setWidth 64 + 1) seed

/-- The test configuration `CFG_T` (R11), used only by the vectors of spec/95_test_vectors.md. -/
def Config.cfgT : Config where
  mMaxB := 65536
  mMaxC := 65536
  itemMax := 64
  hash := Config.hashT

/-- What `B.M` holds after power-up and reset: unspecified (R36, U11; log entry 2). -/
opaque Config.resetMB : BitVec 32
/-- What `B.K` holds after power-up and reset: unspecified (log entry 2). -/
opaque Config.resetKB : BitVec 8
/-- What `B.SEED_A` holds after power-up and reset: unspecified (log entry 2). -/
opaque Config.resetSeedAB : Word
/-- What `B.SEED_B` holds after power-up and reset: unspecified (log entry 2). -/
opaque Config.resetSeedBB : Word
/-- What `C.M` holds after power-up and reset: unspecified (log entry 2). -/
opaque Config.resetMC : BitVec 32
/-- What `C.K` holds after power-up and reset: unspecified (log entry 2). -/
opaque Config.resetKC : BitVec 8
/-- What `C.SEED_A` holds after power-up and reset: unspecified (log entry 2). -/
opaque Config.resetSeedAC : Word
/-- What `C.SEED_B` holds after power-up and reset: unspecified (log entry 2). -/
opaque Config.resetSeedBC : Word
/-- What each slot of `B.ARR` holds after power-up and reset: unspecified (R36, U11; log entry 3). -/
opaque Config.resetSlotB : Nat → BitVec 1
/-- What each slot of `C.CNT` holds after power-up and reset: unspecified (R36, U11; log entry 3). -/
opaque Config.resetSlotC : Nat → BitVec 4

/-- How many clock edges the core is busy with its own work after the word it takes at edge number `tick`: any finite
number (30_encoding R83, 70_reset_and_hazards R251, R252; log entry 6). -/
opaque Config.busyEdges : Nat → Nat

/-- Whether the core takes a word at edge number `tick` while a response waits to be taken: it may or may not
(30_encoding R83; log entry 6). -/
opaque Config.takesWhileWaiting : Nat → Bool

end Sys2Proof
end

