-- ==== Sys2Proof/Machine/Memory.lean ====
section
/-! DEFINITION. A slot array as plain data (spec/20_memory.md R50, R51), and the array of given contents. -/

namespace Sys2Proof.Machine

/-- A slot array (10_state R28, R29, 20_memory R50): pairs of slot number and value, the slot numbers strictly rising and no
value 0, since an unlisted slot holds 0. `Memory.wf` says that this form holds. -/
abbrev Memory (w : Nat) := List (Nat × BitVec w)

/-- The array of `n` slots of which slot `j` holds `f j`. -/
def Memory.ofSlots {w : Nat} (n : Nat) (f : Nat → BitVec w) : Memory w :=
  (List.range n).filterMap fun j => if f j = 0 then none else some (j, f j)

end Sys2Proof.Machine
end

