-- ==== Sys2Proof/Machine/State.lean ====
section
/-! DEFINITION. The state of the block (spec/10_state.md R20 to R36), its value after reset, and the reasons a step can
stop. -/

namespace Sys2Proof.Machine

/-- The registers of one unit (R21). -/
structure UnitRegs where
  /-- `CONSTR`: the unit holds a live filter (R22). -/
  constr : Bool
  /-- `M`, the number of slots in use (R23). -/
  m : BitVec 32
  /-- `K`, the number of indices per item (R24). -/
  k : BitVec 8
  /-- `SEED_A` (R25). -/
  seedA : Word
  /-- `SEED_B` (R25). -/
  seedB : Word
deriving DecidableEq, Repr

/-- A command of which the header has arrived (R33 (a)). -/
structure PartialCommand where
  /-- The header word. -/
  header : Word
  /-- The payload words held so far, first one first. -/
  payload : List Word
  /-- Payload words of the command still to come (30_encoding R72). -/
  owed : Nat
deriving DecidableEq, Repr

/-- The input pins at one rising edge of `clk` (30_encoding R82). -/
structure Edge where
  rst : Bool
  cmdValid : Bool
  cmdData : Word
  rspReady : Bool
deriving DecidableEq, Repr

/-- The block's state, and the host's side of its ports as plain data. -/
structure State where
  /-- Registers of unit B (R21). -/
  b : UnitRegs
  /-- Registers of unit C (R21). -/
  c : UnitRegs
  /-- `C.SSAT` (R21, R31). -/
  ssat : Bool
  /-- `C.SUNF` (R21, R31). -/
  sunf : Bool
  /-- `B.ARR` (R28). -/
  arr : Memory 1
  /-- `C.CNT` (R29). -/
  cnt : Memory 4
  /-- The command being received, or complete and not yet executed (R33 (a)). -/
  front : Option PartialCommand
  /-- The response the host has not yet taken (R33 (b)). -/
  rsp : Option Word
  /-- The model's own: edges for which the core is still busy with its own work (30_encoding R83; log entry 6). -/
  stall : Nat
  /-- The model's own: the word the host presents and the core has not taken (30_encoding R83; log entry 8). -/
  held : Option Word
  /-- The model's own: the pins at the coming clock edges (log entry 7). -/
  edges : List Edge
  /-- The model's own: the responses transferred to the host, oldest first (70_reset_and_hazards R254; log entry 7). -/
  taken : List Word
  /-- The model's own: the number of the edge, which the free values are read at (log entry 6). -/
  tick : Nat
deriving DecidableEq, Repr

/-- Why the machine stops. The spec has no fault: each of its errors is a response (60_exceptions R200). Both
constructors are met only in states that no run reaches. -/
inductive Fault where
  /-- Raised by `itemCommand` (INS, QRY, REM.C) when the unit is constructed and its `M` is 0 or above its physical array,
  which R23 excludes: an index would be undefined or fall on a slot that does not exist. Safe. -/
  | arraySize (u : UnitId)
  /-- Raised by `step` for a complete command whose held payload is not that of its header, which R72 excludes. Safe. -/
  | payloadCount
deriving DecidableEq, Repr

/-- What the model gives no meaning to. -/
inductive Refusal where
  /-- Raised by an arm of `exec` whose instruction has no meaning yet; no arm does. Safe. -/
  | notModelled (mnemonic : String)
  /-- Raised by `step` when the host drops or changes a word it presents before it is transferred: "What the block does if
  the host breaks the first duty is not defined by this spec" (70_reset_and_hazards R250; U17: refuse). Safe. -/
  | hostWordChanged
deriving DecidableEq, Repr

/-- The machine right after reset (R36, 70_reset_and_hazards R241): both units unconstructed, the sticky flags 0, no
partial command, no response. What R36 leaves unspecified is an opaque constant, each register (log entry 2)
and each slot of the physical arrays (log entry 3) one of its own; no input is placed (log entry 7). -/
def State.reset : State where
  b := { constr := false, m := Config.resetMB, k := Config.resetKB,
         seedA := Config.resetSeedAB, seedB := Config.resetSeedBB }
  c := { constr := false, m := Config.resetMC, k := Config.resetKC,
         seedA := Config.resetSeedAC, seedB := Config.resetSeedBC }
  ssat := false
  sunf := false
  arr := Memory.ofSlots Config.hw.mMaxB Config.resetSlotB
  cnt := Memory.ofSlots Config.hw.mMaxC Config.resetSlotC
  front := none
  rsp := none
  stall := 0
  held := none
  edges := []
  taken := []
  tick := 0

end Sys2Proof.Machine
end

