-- ==== Sys2Proof/Machine/Ops.lean ====
section
/-! DEFINITION. The named operations over the arrays, the registers and the response: `ArrRead`, `ArrWrite`, the clearing
sweep (spec/20_memory.md R53, R54), `respond` and `raise` (spec/30_encoding.md R80, spec/60_exceptions.md R200). -/

namespace Sys2Proof.Machine

/-! ### Slot arrays -/

/-- The canonical form below a list: every slot number is above `lo`, they rise strictly, and no value is 0. -/
def Memory.wfAbove {w : Nat} (lo : Nat) : Memory w → Bool
  | [] => true
  | (i, x) :: rest => decide (lo ≤ i) && x != 0 && Memory.wfAbove (i + 1) rest

/-- The canonical form of an array: strictly rising slot numbers, no value 0. -/
def Memory.wf {w : Nat} (a : Memory w) : Bool := Memory.wfAbove 0 a

/-- `ArrRead(u, j)` (R53); an unlisted slot reads 0. -/
def Memory.read {w : Nat} : Memory w → Nat → BitVec w
  | [], _ => 0
  | (i, x) :: rest, j => if i = j then x else Memory.read rest j

/-- One entry before a list, left out when its value is what an unlisted slot reads as. -/
def Memory.put {w : Nat} (j : Nat) (v : BitVec w) (rest : Memory w) : Memory w :=
  if v = 0 then rest else (j, v) :: rest

/-- `ArrWrite(u, j, v)` (R54). -/
def Memory.write {w : Nat} : Memory w → Nat → BitVec w → Memory w
  | [], j, v => Memory.put j v []
  | (i, x) :: rest, j, v =>
    if j < i then Memory.put j v ((i, x) :: rest)
    else if j = i then Memory.put j v rest
    else (i, x) :: Memory.write rest j v

/-- The clearing sweep of `CONS.u` (42 R150, 43 R170): slots `0 .. m-1` become 0. It is the loop of `ArrWrite(u, j, 0)`
over them (`Memory.clear_eq_sweep`). -/
def Memory.clear {w : Nat} (m : Nat) (a : Memory w) : Memory w :=
  a.filter fun e => decide (m ≤ e.1)

/-! ### Registers -/

/-- The registers of a unit. -/
def State.regs (s : State) : UnitId → UnitRegs
  | .B => s.b
  | .C => s.c

/-! ### The response -/

/-- The fields of a response word (R80); a field not named is 0. -/
structure Response where
  op : BitVec 4
  u : UnitId
  code : BitVec 8 := 0
  pk : BitVec 8 := 0
  con : Bool := false
  unf : Bool := false
  sat : Bool := false
  res : Bool := false
  m : BitVec 32 := 0
deriving DecidableEq, Repr

/-- The response word (R80): `OP U 000 CODE PK 0000 CON UNF SAT RES M`, from bit 63 down. -/
def Response.word (r : Response) : Word :=
  r.op ++ r.u.bit ++ 0#3 ++ r.code ++ r.pk ++ 0#4 ++ BitVec.ofBool r.con ++ BitVec.ofBool r.unf ++
    BitVec.ofBool r.sat ++ BitVec.ofBool r.res ++ r.m

/-- The number of an error code (R201). -/
def errorNumber : ErrorCode → BitVec 8
  | .illegalOpcode => 1
  | .reservedField => 2
  | .noRemove => 3
  | .itemLen => 4
  | .notConstructed => 5
  | .alreadyConstructed => 6
  | .zeroBits => 7
  | .zeroHashes => 8
  | .capacity => 9

/-- `respond(fields)` (R14): the command ends, its response waits to be taken. -/
def respond (r : Response) (s : State) : Host.Outcome State Fault Refusal :=
  .next { s with rsp := some r.word }

/-- `raise <E>` (R200): the command ends; nothing changes but the response, which carries `OP`, `U` and the code. This is
the block's exception: there is no saved state, no vector and no handler, and so no return. -/
def raise (op : BitVec 4) (u : UnitId) (e : ErrorCode) (s : State) : Host.Outcome State Fault Refusal :=
  respond { op := op, u := u, code := errorNumber e } s

/-- The `CODE` field of a response word, `P[55:48]` (R80). -/
def codeOf (p : Word) : BitVec 8 := p.extractLsb' 48 8

end Sys2Proof.Machine
end

