-- ==== Sys2Proof/Machine/Operands.lean ====
section
/-! DEFINITION. The item of a command: its bytes in the payload words (spec/30_encoding.md R74, spec/20_memory.md R57),
and the host's packing of an item into words (R84, R85). -/

namespace Sys2Proof.Machine

/-- Byte `j` of the payload, little endian in each word: bits `[8*(j mod 8)+7 : 8*(j mod 8)]` of word `floor(j/8)`. -/
def payloadByte (payload : List Word) (j : Nat) : Byte :=
  (payload.getD (j / 8) 0).extractLsb' (8 * (j % 8)) 8

/-- The item: `item[0]` to `item[LEN-1]`; bytes above are padding and are ignored (R74). -/
def itemBytes (len : BitVec 16) (payload : List Word) : List Byte :=
  (List.range len.toNat).map (payloadByte payload)

/-! ### The host's side -/

/-- Eight bytes as a word, the first byte least significant. -/
def packWord (b : List Byte) : Word :=
  b.getD 7 0 ++ b.getD 6 0 ++ b.getD 5 0 ++ b.getD 4 0 ++ b.getD 3 0 ++ b.getD 2 0 ++ b.getD 1 0 ++ b.getD 0 0

/-- The `ceil(LEN/8)` payload words of an item, padded with zero bytes. -/
def packItem (item : List Byte) : List Word :=
  (List.range ((item.length + 7) / 8)).map fun n => packWord (item.drop (8 * n))

/-- The `LEN` field of an item of at most 65535 bytes. -/
def itemLenField (item : List Byte) : BitVec 16 := BitVec.ofNat 16 item.length

/-- `u64(n)` of the assembler syntax (R84): the eight bytes of `n`, least significant first. -/
def itemOfU64 (n : Word) : List Byte := (List.range 8).map fun j => n.extractLsb' (8 * j) 8

/-- `"text"` of the assembler syntax (R84): the ASCII codes of the characters. -/
def itemOfText (t : String) : List Byte := t.toList.map fun ch => BitVec.ofNat 8 ch.toNat

end Sys2Proof.Machine
end

