-- ==== Sys2Proof/Machine/Indexer.lean ====
section
/-! DEFINITION. The `double_hash_indexer` (spec/41_index_generator.md): the index formula R131, exact as R132 says, and
beside it the hardware form R138 with the internal interface R139. -/

namespace Sys2Proof.Machine

/-- `(h1 + i * h2) mod m` over the integers: no reduction modulo `2^64` before the one modulo `m` (R132). -/
def indexFormula (h1 h2 : Word) (m i : Nat) : Nat := (h1.toNat + i * h2.toNat) % m

/-- `idx(u, item, i)` (R131): one hash function seeded twice (00_scope R12). -/
def idx (cfg : Config) (u : UnitRegs) (item : List Byte) (i : Nat) : Nat :=
  indexFormula (cfg.hash u.seedA item) (cfg.hash u.seedB item) u.m.toNat i

/-- `indices(item)` (R130, R134): `idx` for `i = 0 .. K-1`, repeats kept (R136). -/
def indices (cfg : Config) (u : UnitRegs) (item : List Byte) : List Nat :=
  (List.range u.k.toNat).map (idx cfg u item)

/-! ### The hardware form -/

/-- `a_(i+1)` of `a_i` (R138): one add, and one compare-and-subtract. -/
def indexStep (m stride a : Nat) : Nat := if a + stride < m then a + stride else a + stride - m

/-- The indexer between two edges (R138, R139). It is working state of one command (10_state R32), not of the machine. -/
structure IndexerState where
  /-- `idx_valid`: a sequence is begun and not over. -/
  valid : Bool
  /-- `idx[31:0]`: the current index `a_i`. -/
  idx : BitVec 32
  /-- `s = h2 mod m`. -/
  stride : BitVec 32
  /-- `m[31:0]` of the sequence. -/
  m : BitVec 32
  /-- How many indices are left after the current one. -/
  left : BitVec 8
deriving DecidableEq, Repr

/-- No sequence: `idx_valid` is 0. It keeps nothing of the one before (R135). That `idx` is 0 then is the model's choice: the
spec is silent on `idx` while `idx_valid` is 0 (DESIGN CHOICE, log entry 17). -/
def indexerIdle : IndexerState where
  valid := false
  idx := 0
  stride := 0
  m := 0
  left := 0

/-- `start` with `h1`, `h2`, `m`, `k` (R139): `a_0 = h1 mod m`. That `start` itself shows index number 0, with no `next`
before it, is the model's choice (DESIGN CHOICE, log entry 17): R139 says only that it begins a sequence. So is that there
is no index to show where `k` is 0, which no constructed unit has (10_state R24), and what `idx` then carries. -/
def indexerStart (h1 h2 : Word) (m : BitVec 32) (k : BitVec 8) : IndexerState where
  valid := k != 0
  idx := BitVec.ofNat 32 (h1.toNat % m.toNat)
  stride := BitVec.ofNat 32 (h2.toNat % m.toNat)
  m := m
  left := k - 1

/-- `last`: the index shown is number `k - 1`. While `idx_valid` is 0, for which R139 gives no value, it is 0 by the model's
choice (DESIGN CHOICE, log entry 17). -/
def indexerLast (x : IndexerState) : Bool := x.valid && x.left == 0

/-- `next`: the index after the current one (R138). That the first `next` shows number 1, number 0 being shown at `start`,
and that `next` at the last index ends the sequence (R134), is the model's choice (DESIGN CHOICE, log entry 17). -/
def indexerNext (x : IndexerState) : IndexerState :=
  if !x.valid || indexerLast x then indexerIdle
  else { x with idx := BitVec.ofNat 32 (indexStep x.m.toNat x.stride.toNat x.idx.toNat), left := x.left - 1 }

/-- `abort`: the consumer needs no more indices (the early stop of `QRY`). That `idx_valid` is 0 from then on is the model's
choice (DESIGN CHOICE, log entry 17). -/
def indexerAbort (_ : IndexerState) : IndexerState := indexerIdle

/-- The signals into the indexer (R139). -/
structure IndexerIn where
  start : Bool
  h1 : Word
  h2 : Word
  m : BitVec 32
  k : BitVec 8
  next : Bool
  abort : Bool
deriving DecidableEq, Repr

/-- The signals out of the indexer (R139). -/
structure IndexerOut where
  idx : BitVec 32
  idxValid : Bool
  last : Bool
deriving DecidableEq, Repr

/-- The indexer at one edge. The consumer asks for one thing at a time; were it to ask for several, the first of
`start`, `abort`, `next` is done (log entry 17). -/
def indexerEdge (x : IndexerState) (i : IndexerIn) : IndexerState :=
  if i.start then indexerStart i.h1 i.h2 i.m i.k
  else if i.abort then indexerAbort x
  else if i.next then indexerNext x
  else x

/-- What the indexer shows. While `idx_valid` is 0, `idx` and `last` mean nothing, and what they carry is the model's choice
(DESIGN CHOICE, log entry 17). -/
def indexerOut (x : IndexerState) : IndexerOut where
  idx := x.idx
  idxValid := x.valid
  last := indexerLast x

/-- The indices shown to a consumer that asks up to `n` times. -/
def indexerRun : Nat → IndexerState → List Nat
  | 0, _ => []
  | n + 1, x => if x.valid then x.idx.toNat :: indexerRun n (indexerNext x) else []

/-- `QRY` over the indexer (R134): it asks for the next index while the slot shown passes the test, and aborts at the first
that does not. The answer, how many slots were read, and the indexer after it; at most `n` indices are read. How a sequence
read to its end is ended, on which R139 is silent, is the model's choice (DESIGN CHOICE, log entry 17): where the last slot
passes too, `next` is given once more, which asks for no index and leaves the indexer idle. -/
def indexerScan (test : Nat → Bool) : Nat → IndexerState → (Bool × Nat) × IndexerState
  | 0, x => ((true, 0), x)
  | n + 1, x =>
    if !x.valid then ((true, 0), x)
    else if test x.idx.toNat then
      let r := indexerScan test n (indexerNext x)
      ((r.1.1, r.1.2 + 1), r.2)
    else ((false, 1), indexerAbort x)

end Sys2Proof.Machine
end

