-- ==== Sys2Proof/Machine/Flags.lean ====
section
/-! DEFINITION. The counter arithmetic and the saturation and underflow marks (spec/00_scope.md R14,
spec/10_state.md R31, spec/20_memory.md R55, spec/41_index_generator.md R140). -/

namespace Sys2Proof.Machine

/-- `CNT_MAX` (R8). -/
def cntMax : BitVec 4 := 15#4

/-- `sat_inc(c)` (R14). -/
def satInc (c : BitVec 4) : BitVec 4 := if c.toNat < cntMax.toNat then c + 1 else cntMax

/-- `floor_dec(c)` (R14). -/
def floorDec (c : BitVec 4) : BitVec 4 := if 0 < c.toNat then c - 1 else 0

/-- The saturation mark of one increment: the counter was already at `CNT_MAX` (R55). -/
def satMark (c : BitVec 4) : Bool := c == cntMax

/-- The underflow mark of one decrement: the counter was already 0 (R55). -/
def unfMark (c : BitVec 4) : Bool := c == 0

/-- `C.SSAT <- C.SSAT | SAT` (R31). -/
def stickySat (sat : Bool) (s : State) : State := { s with ssat := s.ssat || sat }

/-- `C.SUNF <- C.SUNF | UNF` (R31). -/
def stickyUnf (unf : Bool) (s : State) : State := { s with sunf := s.sunf || unf }

end Sys2Proof.Machine
end

