-- ==== Sys2Proof/Machine/Slots.lean ====
section
/-! DEFINITION. The two sub-blocks that hold the arrays: `bit_array_lookup` (spec/42_bitset_filter.md R150) and
`counting_bloom_counter_bank` (spec/43_counting_filter.md R170), their slot operations and the sequencer's loops over
an item's indices. -/

namespace Sys2Proof.Machine

/-! ### bit_array_lookup -/

/-- `lookup(j)`. -/
def bitLookup (a : Memory 1) (j : Nat) : Bool := Memory.read a j != 0

/-- `BitSet(j)` (20_memory R55). -/
def bitSet (a : Memory 1) (j : Nat) : Memory 1 := Memory.write a j 1

/-- The loop of `INS.B` (R151). -/
def setBits (js : List Nat) (a : Memory 1) : Memory 1 := js.foldl bitSet a

/-! ### counting_bloom_counter_bank -/

/-- `read(j)`, tested for zero. -/
def cntNonzero (a : Memory 4) (j : Nat) : Bool := Memory.read a j != 0

/-- `CntInc(j)`: the new array (20_memory R55). -/
def cntInc (a : Memory 4) (j : Nat) : Memory 4 := Memory.write a j (satInc (Memory.read a j))

/-- `CntDec(j)`: the new array (20_memory R55). -/
def cntDec (a : Memory 4) (j : Nat) : Memory 4 := Memory.write a j (floorDec (Memory.read a j))

/-- The loop of `INS.C` (R171): each increment sees the one before; the flag says whether one met `CNT_MAX`. -/
def incAll : List Nat → Memory 4 → Memory 4 × Bool
  | [], a => (a, false)
  | j :: js, a =>
    let r := incAll js (cntInc a j)
    (r.1, satMark (Memory.read a j) || r.2)

/-- The loop of `REM.C` (R173): each decrement sees the one before; the flag says whether one met 0. -/
def decAll : List Nat → Memory 4 → Memory 4 × Bool
  | [], a => (a, false)
  | j :: js, a =>
    let r := decAll js (cntDec a j)
    (r.1, unfMark (Memory.read a j) || r.2)

/-! ### Both -/

/-- The loop of `QRY.u` (R152, R172): the answer, and how many slots were read before it stopped (30_encoding R81). -/
def scan (test : Nat → Bool) : List Nat → Bool × Nat
  | [] => (true, 0)
  | j :: js =>
    if test j then ((scan test js).1, (scan test js).2 + 1) else (false, 1)

end Sys2Proof.Machine
end

