-- ==== Sys2Proof/Machine/ItemCommand.lean ====
section
/-! DEFINITION. What every command on an item does before its own work: the checks of spec/60_exceptions.md R212,
lines 4 and 5, and then the item's indices. -/

namespace Sys2Proof.Machine

/-- `M` is a size the unit's array can have (10_state R23). -/
def sizeOk (cfg : Config) (u : UnitId) (s : State) : Bool :=
  decide (1 ≤ (s.regs u).m.toNat) && decide ((s.regs u).m.toNat ≤ cfg.mMax u)

/-- The checks of `INS.u`, `QRY.u`, `REM.C` in their order (R205 before R206), then `body` on the item's indices. A
constructed unit of an impossible size, which no run reaches (10_state R23), is a fault. -/
def itemCommand (cfg : Config) (op : BitVec 4) (u : UnitId) (len : BitVec 16) (payload : List Word) (s : State)
    (body : List Nat → Host.Outcome State Fault Refusal) : Host.Outcome State Fault Refusal :=
  if cfg.itemMax < len.toNat then raise op u .itemLen s
  else if !(s.regs u).constr then raise op u .notConstructed s
  else if !sizeOk cfg u s then .fault (.arraySize u)
  else body (indices cfg (s.regs u) (itemBytes len payload))

end Sys2Proof.Machine
end

