-- ==== Sys2Proof/Machine/CountingFilter.lean ====
section
/-! DEFINITION. Unit C, the counting Bloom filter: INS.C, QRY.C, REM.C (spec/43_counting_filter.md R171 to R173). -/

namespace Sys2Proof.Machine

/-- `INS.C` (R171). -/
def insC (cfg : Config) (len : BitVec 16) (payload : List Word) (s : State) : Host.Outcome State Fault Refusal :=
  itemCommand cfg opIns .C len payload s fun js =>
    let r := incAll js s.cnt
    respond { op := opIns, u := .C, sat := r.2, pk := s.c.k } (stickySat r.2 { s with cnt := r.1 })

/-- `QRY.C` (R172). -/
def qryC (cfg : Config) (len : BitVec 16) (payload : List Word) (s : State) : Host.Outcome State Fault Refusal :=
  itemCommand cfg opQry .C len payload s fun js =>
    let r := scan (cntNonzero s.cnt) js
    respond { op := opQry, u := .C, res := r.1, pk := BitVec.ofNat 8 r.2 } s

/-- `REM.C` (R173). -/
def remC (cfg : Config) (len : BitVec 16) (payload : List Word) (s : State) : Host.Outcome State Fault Refusal :=
  itemCommand cfg opRem .C len payload s fun js =>
    let r := decAll js s.cnt
    respond { op := opRem, u := .C, unf := r.2, pk := s.c.k } (stickyUnf r.2 { s with cnt := r.1 })

/-- INS.C: insert into the counting filter (R171). -/
def execInsC (len : BitVec 16) (payload : List Word) (s : State) : Host.Outcome State Fault Refusal :=
  insC Config.hw len payload s

/-- QRY.C: membership query on the counting filter (R172). -/
def execQryC (len : BitVec 16) (payload : List Word) (s : State) : Host.Outcome State Fault Refusal :=
  qryC Config.hw len payload s

/-- REM.C: remove from the counting filter (R173). -/
def execRemC (len : BitVec 16) (payload : List Word) (s : State) : Host.Outcome State Fault Refusal :=
  remC Config.hw len payload s

end Sys2Proof.Machine
end

