-- ==== Sys2Proof/Machine/Lifecycle.lean ====
section
/-! DEFINITION. Construction, destruction and status: CONS, DSTR, STAT (spec/40_sizing_and_construction.md R110 to
R116). Each meaning is written for any configuration; `exec…` is it at `Config.hw`. -/

namespace Sys2Proof.Machine

/-- The checks of `CONS.u` in their order (R110, R111; 60_exceptions R212, lines 6 to 9). -/
def consCheck (cfg : Config) (u : UnitId) (k : BitVec 8) (m : BitVec 32) (s : State) : Option ErrorCode :=
  if (s.regs u).constr then some .alreadyConstructed
  else if m = 0 then some .zeroBits
  else if k = 0 then some .zeroHashes
  else if cfg.mMax u < m.toNat then some .capacity
  else none

/-- The writes of a successful `CONS.B` (R110). -/
def constructB (k : BitVec 8) (m : BitVec 32) (seedA seedB : Word) (s : State) : State :=
  { s with b := { constr := true, m := m, k := k, seedA := seedA, seedB := seedB }
           arr := Memory.clear m.toNat s.arr }

/-- The writes of a successful `CONS.C` (R111). -/
def constructC (k : BitVec 8) (m : BitVec 32) (seedA seedB : Word) (s : State) : State :=
  { s with c := { constr := true, m := m, k := k, seedA := seedA, seedB := seedB }
           cnt := Memory.clear m.toNat s.cnt
           ssat := false
           sunf := false }

/-- `CONS.B` (R110). -/
def consB (cfg : Config) (k : BitVec 8) (m : BitVec 32) (seedA seedB : Word) (s : State) :
    Host.Outcome State Fault Refusal :=
  match consCheck cfg .B k m s with
  | some e => raise opCons .B e s
  | none => respond { op := opCons, u := .B } (constructB k m seedA seedB s)

/-- `CONS.C` (R111). -/
def consC (cfg : Config) (k : BitVec 8) (m : BitVec 32) (seedA seedB : Word) (s : State) :
    Host.Outcome State Fault Refusal :=
  match consCheck cfg .C k m s with
  | some e => raise opCons .C e s
  | none => respond { op := opCons, u := .C } (constructC k m seedA seedB s)

/-- CONS.B: construct the standard filter (R110). -/
def execConsB (k : BitVec 8) (m : BitVec 32) (seedA seedB : Word) (s : State) : Host.Outcome State Fault Refusal :=
  consB Config.hw k m seedA seedB s

/-- CONS.C: construct the counting filter (R111). -/
def execConsC (k : BitVec 8) (m : BitVec 32) (seedA seedB : Word) (s : State) : Host.Outcome State Fault Refusal :=
  consC Config.hw k m seedA seedB s

/-- DSTR.B: end the lifetime of the standard filter (R112). `M`, `K`, the seeds and the array keep what they hold, which
no command can observe (R26, R27, R30; log entry 4). -/
def execDstrB (s : State) : Host.Outcome State Fault Refusal :=
  if s.b.constr then respond { op := opDstr, u := .B } { s with b := { s.b with constr := false } }
  else raise opDstr .B .notConstructed s

/-- DSTR.C: end the lifetime of the counting filter (R113). -/
def execDstrC (s : State) : Host.Outcome State Fault Refusal :=
  if s.c.constr then
    respond { op := opDstr, u := .C } { s with c := { s.c with constr := false }, ssat := false, sunf := false }
  else raise opDstr .C .notConstructed s

/-- STAT.B: read back the standard filter's parameters (R114). -/
def execStatB (s : State) : Host.Outcome State Fault Refusal :=
  if s.b.constr then respond { op := opStat, u := .B, con := true, pk := s.b.k, m := s.b.m } s
  else respond { op := opStat, u := .B } s

/-- STAT.C: read back the counting filter's parameters and sticky flags (R115). -/
def execStatC (s : State) : Host.Outcome State Fault Refusal :=
  if s.c.constr then
    respond { op := opStat, u := .C, con := true, pk := s.c.k, m := s.c.m, sat := s.ssat, unf := s.sunf } s
  else respond { op := opStat, u := .C } s

end Sys2Proof.Machine
end

