-- ==== Sys2Proof/Machine/StandardFilter.lean ====
section
/-! DEFINITION. Unit B, the standard Bloom filter: INS.B, QRY.B and the refused REM.B
(spec/42_bitset_filter.md R151 to R153, spec/60_exceptions.md R204). -/

namespace Sys2Proof.Machine

/-- `INS.B` (R151). -/
def insB (cfg : Config) (len : BitVec 16) (payload : List Word) (s : State) : Host.Outcome State Fault Refusal :=
  itemCommand cfg opIns .B len payload s fun js =>
    respond { op := opIns, u := .B, pk := s.b.k } { s with arr := setBits js s.arr }

/-- `QRY.B` (R152). -/
def qryB (cfg : Config) (len : BitVec 16) (payload : List Word) (s : State) : Host.Outcome State Fault Refusal :=
  itemCommand cfg opQry .B len payload s fun js =>
    let r := scan (bitLookup s.arr) js
    respond { op := opQry, u := .B, res := r.1, pk := BitVec.ofNat 8 r.2 } s

/-- INS.B: insert into the standard filter (R151). -/
def execInsB (len : BitVec 16) (payload : List Word) (s : State) : Host.Outcome State Fault Refusal :=
  insB Config.hw len payload s

/-- QRY.B: membership query on the standard filter (R152). -/
def execQryB (len : BitVec 16) (payload : List Word) (s : State) : Host.Outcome State Fault Refusal :=
  qryB Config.hw len payload s

/-- REM.B: no operation of the standard filter; always `E_NO_REMOVE`, before any other check of the command
(R153, R204; R212, line 3). -/
def execRemB (_len : BitVec 16) (_payload : List Word) (s : State) : Host.Outcome State Fault Refusal :=
  raise opRem .B .noRemove s

end Sys2Proof.Machine
end

