-- ==== Sys2Proof/Machine/Dispatch.lean ====
section
/-! DEFINITION. One arm per command of spec/opcode_table.json. -/

namespace Sys2Proof.Machine

def exec (i : Instr) (s : State) : Host.Outcome State Fault Refusal :=
  match i with
  | .consB k m seedA seedB => Sys2Proof.Machine.execConsB k m seedA seedB s
  | .consC k m seedA seedB => Sys2Proof.Machine.execConsC k m seedA seedB s
  | .dstrB => Sys2Proof.Machine.execDstrB s
  | .dstrC => Sys2Proof.Machine.execDstrC s
  | .insB len payload => Sys2Proof.Machine.execInsB len payload s
  | .insC len payload => Sys2Proof.Machine.execInsC len payload s
  | .qryB len payload => Sys2Proof.Machine.execQryB len payload s
  | .qryC len payload => Sys2Proof.Machine.execQryC len payload s
  | .remB len payload => Sys2Proof.Machine.execRemB len payload s
  | .remC len payload => Sys2Proof.Machine.execRemC len payload s
  | .statB => Sys2Proof.Machine.execStatB s
  | .statC => Sys2Proof.Machine.execStatC s

end Sys2Proof.Machine
end

