-- ==== Sys2Proof/Machine/FrontEnd.lean ====
section
/-! DEFINITION. The ports and the command front end: which words are taken, which responses leave, what reset does
(spec/30_encoding.md R72, R82, R83; spec/10_state.md R33; spec/70_reset_and_hazards.md R240 to R243, R250). One step
of the machine is one rising edge of `clk`. -/

namespace Sys2Proof.Machine

/-- The pins of a host that does nothing; also what the host drives once `edges` is used up (log entry 7). -/
def idleEdge : Edge where
  rst := false
  cmdValid := false
  cmdData := 0
  rspReady := false

/-- The pins at the coming edge. -/
def nextEdge (s : State) : Edge := s.edges.headD idleEdge

/-! ### Receiving a command -/

/-- How many payload words the front end holds: `max(2, ceil(ITEM_MAX / 8))` (10_state R33). -/
def payloadRoom (cfg : Config) : Nat := max 2 ((cfg.itemMax + 7) / 8)

/-- A word taken with no command begun is a header (R72). -/
def acceptHeader (h : Word) : PartialCommand where
  header := h
  payload := []
  owed := payloadWords h

/-- A word taken while payload is owed is payload. Words beyond the room belong to an item longer than `ITEM_MAX`; they
are consumed and ignored (60_exceptions R205, R204). -/
def acceptPayload (cfg : Config) (w : Word) (p : PartialCommand) : PartialCommand :=
  { p with payload := if p.payload.length < payloadRoom cfg then p.payload ++ [w] else p.payload
           owed := p.owed - 1 }

/-- The front end after the word `w` (R70, R72). -/
def acceptWord (cfg : Config) (w : Word) : Option PartialCommand → PartialCommand
  | none => acceptHeader w
  | some p => acceptPayload cfg w p

/-- All words of the command have arrived. -/
def frontComplete : Option PartialCommand → Bool
  | none => false
  | some p => p.owed == 0

/-! ### Output pins (R82) -/

/-- `cmd_ready`: 0 while the core is busy or holds a complete command; while a response waits the core may or may not
take a word (R83; log entry 6); else 1 (60_exceptions R219, 70_reset_and_hazards R243). -/
def cmdReady (s : State) : Bool :=
  s.stall == 0 && !frontComplete s.front && (s.rsp.isNone || Config.takesWhileWaiting s.tick)

/-- `rsp_valid`. -/
def rspValid (s : State) : Bool := s.rsp.isSome

/-- `rsp_data` while `rsp_valid = 1`; the spec gives it no value otherwise. -/
def rspData (s : State) : Option Word := s.rsp

/-! ### One edge -/

/-- A command word is transferred at this edge (R83). -/
def wordTransfers (s : State) (e : Edge) : Bool := !e.rst && e.cmdValid && cmdReady s

/-- A response word is transferred at this edge (R83). -/
def responseTransfers (s : State) (e : Edge) : Bool := !e.rst && e.rspReady && rspValid s

/-- The host drops or changes a word it presented before it was transferred (R83, R250). A reset ends the duty
(log entry 8). -/
def hostBreach (s : State) (e : Edge) : Bool :=
  match s.held with
  | none => false
  | some w => !e.rst && !(e.cmdValid && e.cmdData == w)

/-- The complete command the core executes at this edge: it is not busy, and there is room for the response. -/
def readyCommand (s : State) : Option (Word × List Word) :=
  match s.front with
  | none => none
  | some p => if p.owed = 0 ∧ s.stall = 0 ∧ s.rsp = none then some (p.header, p.payload) else none

/-- A reset edge (70_reset_and_hazards R241, R242). What the units' other registers and the arrays hold stays, and no
command can observe it (log entry 4). -/
def resetEdge (s : State) : State :=
  { s with b := { s.b with constr := false }
           c := { s.c with constr := false }
           ssat := false
           sunf := false
           front := none
           rsp := none
           stall := 0
           held := none
           edges := s.edges.tail
           tick := s.tick + 1 }

/-- The word the host still presents after an edge. -/
def stillHeld (s : State) (e : Edge) : Option Word :=
  if e.cmdValid && !wordTransfers s e then some e.cmdData else none

/-- An edge at which no command is executed: the transfers of R83, and one edge less of the core's own work. -/
def transfer (cfg : Config) (s : State) (e : Edge) : State :=
  { s with front := if wordTransfers s e then some (acceptWord cfg e.cmdData s.front) else s.front
           stall := if wordTransfers s e then Config.busyEdges s.tick else s.stall - 1
           rsp := if responseTransfers s e then none else s.rsp
           taken := if responseTransfers s e then s.taken ++ s.rsp.toList else s.taken
           held := stillHeld s e
           edges := s.edges.tail
           tick := s.tick + 1 }

/-- The state a command is executed on: its words have left the front end, and the edge is past. -/
def retire (s : State) (e : Edge) : State :=
  { s with front := none
           held := stillHeld s e
           edges := s.edges.tail
           tick := s.tick + 1 }

/-- The answer to a header that is no command: the payload has been consumed, the error is its response (R79, R200). -/
def answerUndecoded (h : Word) : DecodeError → State → Host.Outcome State Fault Refusal
  | .illegalOpcode, s => raise (opOf h) (unitOf h) .illegalOpcode s
  | .reservedField, s => raise (opOf h) (unitOf h) .reservedField s
  | .payloadCount, _ => .fault .payloadCount

/-- The state in which the core, idle and with its last response taken, holds the complete command `h`, `payload` and
the host drives nothing at the coming edge. -/
def withCommand (s : State) (h : Word) (payload : List Word) : State :=
  { s with front := some { header := h, payload := payload, owed := 0 }
           rsp := none
           taken := s.taken ++ s.rsp.toList
           stall := 0
           held := none
           edges := idleEdge :: s.edges }

end Sys2Proof.Machine
end

