-- ==== Sys2Proof/Machine/Step.lean ====
section
/-! DEFINITION. One rising edge of `clk` (spec/30_encoding.md R82, R83), and the placing of an instruction where the next
step executes it. -/

namespace Sys2Proof.Machine

/-- One edge: a reset edge (70_reset_and_hazards R241); a host that breaks its first duty, which the spec does not define
(R250); a complete command executed, or answered with its decode error (30_encoding R79); else the transfers of R83. -/
def step (s : State) : Host.Outcome State Fault Refusal :=
  if (nextEdge s).rst then .next (resetEdge s)
  else if hostBreach s (nextEdge s) then .refused .hostWordChanged
  else
    match readyCommand s with
    | none => .next (transfer Config.hw s (nextEdge s))
    | some (h, payload) =>
      match decode h payload with
      | .ok i => exec i (retire s (nextEdge s))
      | .error d => answerUndecoded h d (retire s (nextEdge s))

/-- `s` with the instruction whose bits are `w` held complete by the front end, so that the next step executes it
(log entry 7). -/
def State.withFetchWord (s : State) (nbits w : Nat) : State :=
  withCommand s (tableHeader nbits w) (tablePayload nbits w)

end Sys2Proof.Machine
end

