-- ==== Sys2Proof/Machine/HostApi.lean ====
section
/-! DEFINITION. The host's procedures: Sizing over the real numbers (spec/40_sizing_and_construction.md R100 to R107)
and the pseudo-instructions (spec/30_encoding.md R85). They run outside the core; what they hand to it is a command. -/

namespace Sys2Proof.Machine

/-- The host-side failures (60_exceptions R211). -/
inductive SizingError where
  /-- `SZ_E_RATE`: the rate is outside (0, 1) or is no real number. -/
  | rate
  /-- `SZ_E_ITEMS`: no expected items. -/
  | items
  /-- `SZ_E_RANGE`: `num_bits > 2^32 - 1` or `num_hashes > 255`, which a `CONS` header cannot carry. -/
  | range
deriving DecidableEq, Repr

/-! ### Sizing -/

/-- The value before `ceil` in R101. -/
noncomputable def bitsBeforeCeil (p : ℝ) (n : ℕ) : ℝ := -(n * Real.log p) / Real.log 2 ^ 2

/-- `num_bits` (R101). -/
noncomputable def numBits (p : ℝ) (n : ℕ) : ℕ := ⌈bitsBeforeCeil p n⌉₊

/-- `num_hashes`, from the integer `num_bits` (R102). -/
noncomputable def numHashes (bits n : ℕ) : ℕ := max 1 (round ((bits : ℝ) / n * Real.log 2)).toNat

open Classical in
/-- Sizing (R100, R104). The rate is `none` where the host's number is a NaN or an infinity. -/
noncomputable def sizing (rate : Option ℝ) (n : ℕ) : Except SizingError (ℕ × ℕ) :=
  match rate with
  | none => .error .rate
  | some p =>
    if ¬ (0 < p ∧ p < 1) then .error .rate
    else if n = 0 then .error .items
    else .ok (numBits p n, numHashes (numBits p n) n)

/-! ### Pseudo-instructions -/

/-- `CONS.u m, k, seed_a, seed_b`. -/
def consFor (u : UnitId) (k : BitVec 8) (m : BitVec 32) (seedA seedB : Word) : Instr :=
  match u with
  | .B => .consB k m seedA seedB
  | .C => .consC k m seedA seedB

/-- `WITH_SIZE.u num_bits, num_hashes` (R85), the seeds being the host's pick: the command it issues, or its own failure
where the header's fields cannot hold the numbers. -/
def withSize (u : UnitId) (bits hashes : ℕ) (seedA seedB : Word) : Except SizingError Instr :=
  if 4294967295 < bits ∨ 255 < hashes then .error .range
  else .ok (consFor u (BitVec.ofNat 8 hashes) (BitVec.ofNat 32 bits) seedA seedB)

/-- `WITH_RATE.u p, n` (R107). -/
noncomputable def withRate (u : UnitId) (rate : Option ℝ) (n : ℕ) (seedA seedB : Word) : Except SizingError Instr :=
  match sizing rate n with
  | .error e => .error e
  | .ok (bits, hashes) => withSize u bits hashes seedA seedB

/-- `INSERT.u item` (R85). -/
def insertItem (u : UnitId) (item : List Byte) : Instr :=
  match u with
  | .B => .insB (itemLenField item) (packItem item)
  | .C => .insC (itemLenField item) (packItem item)

/-- `CONTAINS.u item` (R85); the answer is `RES` of the response. -/
def containsItem (u : UnitId) (item : List Byte) : Instr :=
  match u with
  | .B => .qryB (itemLenField item) (packItem item)
  | .C => .qryC (itemLenField item) (packItem item)

/-- `REMOVE.C item` (R85), and `REM.B item`, which assembles too and which the core refuses (R84). -/
def removeItem (u : UnitId) (item : List Byte) : Instr :=
  match u with
  | .B => .remB (itemLenField item) (packItem item)
  | .C => .remC (itemLenField item) (packItem item)

/-- The drop of a filter (R85). -/
def dropFilter : UnitId → Instr
  | .B => .dstrB
  | .C => .dstrC

end Sys2Proof.Machine
end

