-- ==== Sys2Proof/Safety.lean ====
section
/-! DEFINITION. The invariant of the machine and the notions the claims use: when a command runs, which error applies,
what the host can observe, and the lifetimes of the two filters. -/

namespace Sys2Proof.Machine

/-! ### The invariant -/

/-- While `u.CONSTR = 1`: `1 <= u.M <= M_MAX_u` and `1 <= u.K` (10_state R23, R24). -/
def UnitOk (u : UnitId) (r : UnitRegs) : Prop :=
  r.constr = true → 1 ≤ r.m.toNat ∧ r.m.toNat ≤ Config.hw.mMax u ∧ 1 ≤ r.k.toNat

/-- An array in its canonical form, with no slot outside the physical array (10_state R28, R29; 20_memory R51). -/
def ArrayOk {w : Nat} (limit : Nat) (a : Memory w) : Prop :=
  Memory.wf a = true ∧ ∀ e ∈ a, e.1 < limit

/-- A command being received holds as many payload words as arrived, up to the room for them (10_state R33). -/
def FrontOk (f : Option PartialCommand) : Prop :=
  ∀ p, f = some p → p.owed ≤ payloadWords p.header ∧
    p.payload.length = min (payloadRoom Config.hw) (payloadWords p.header - p.owed)

/-- A word the core may emit as a response: fields that are 0 in R80 are 0, the code is at most 9, and an error
response is 0 below its code (30_encoding R80, 60_exceptions R201). -/
def ResponseOk (p : Word) : Prop :=
  p.extractLsb' 56 3 = 0 ∧ p.extractLsb' 36 4 = 0 ∧ (codeOf p).toNat ≤ 9 ∧
    (codeOf p ≠ 0 → p.extractLsb' 0 48 = 0)

/-- The invariant every step keeps. -/
def Inv (s : State) : Prop :=
  UnitOk .B s.b ∧ UnitOk .C s.c ∧ ArrayOk Config.hw.mMaxB s.arr ∧ ArrayOk Config.hw.mMaxC s.cnt ∧
  (s.c.constr = false → s.ssat = false ∧ s.sunf = false) ∧
  FrontOk s.front ∧ (s.front = none → s.stall = 0) ∧
  (∀ p, s.rsp = some p → ResponseOk p) ∧ (∀ p ∈ s.taken, ResponseOk p)

/-! ### When a command runs -/

/-- At the coming edge the core executes the command of header `h` and held payload `payload`. -/
def Runs (s : State) (h : Word) (payload : List Word) : Prop :=
  (nextEdge s).rst = false ∧ hostBreach s (nextEdge s) = false ∧ readyCommand s = some (h, payload)

/-- The state that command is executed on. -/
def onEdge (s : State) : State := retire s (nextEdge s)

/-- `INS.u`, `QRY.u` or `REM.u` on an item of `len` bytes has its normal effect: the unit is constructed, of a size its
array can have, and `LEN <= ITEM_MAX` (60_exceptions R214; 10_state R23). -/
def Accepts (u : UnitId) (len : BitVec 16) (s : State) : Prop :=
  (s.regs u).constr = true ∧ sizeOk Config.hw u s = true ∧ len.toNat ≤ Config.hw.itemMax

/-- The error applies to the command of header `h` in state `s`: the table of 60_exceptions R212, line by line. -/
def errorApplies (h : Word) (s : State) : ErrorCode → Prop
  | .illegalOpcode => (opOf h).toNat = 0 ∨ 7 ≤ (opOf h).toNat
  | .reservedField => (1 ≤ (opOf h).toNat ∧ (opOf h).toNat ≤ 6) ∧ fieldsOk h = false
  | .noRemove => (opOf h).toNat = 5 ∧ unitOf h = .B
  | .itemLen => (3 ≤ (opOf h).toNat ∧ (opOf h).toNat ≤ 5) ∧ Config.hw.itemMax < (lenOf h).toNat
  | .notConstructed => (2 ≤ (opOf h).toNat ∧ (opOf h).toNat ≤ 5) ∧ (s.regs (unitOf h)).constr = false
  | .alreadyConstructed => (opOf h).toNat = 1 ∧ (s.regs (unitOf h)).constr = true
  | .zeroBits => (opOf h).toNat = 1 ∧ (mOf h).toNat = 0
  | .zeroHashes => (opOf h).toNat = 1 ∧ (kOf h).toNat = 0
  | .capacity => (opOf h).toNat = 1 ∧ Config.hw.mMax (unitOf h) < (mOf h).toNat

/-- Over the next `n` edges the host neither resets nor breaks its duty (70_reset_and_hazards R250); what else its pins are
is open. -/
def HostKeeps : Nat → State → Prop
  | 0, _ => True
  | n + 1, s => (nextEdge s).rst = false ∧ hostBreach s (nextEdge s) = false ∧ ∀ t, step s = .next t → HostKeeps n t

/-- The front end after the words `ws`, from none. -/
def feed (ws : List Word) : Option PartialCommand :=
  ws.foldl (fun f w => some (acceptWord Config.hw w f)) none

/-! ### What a host can observe -/

/-- Two states no host can tell apart: they differ only in what an unconstructed unit holds, and in slots a constructed
unit does not use (10_state R22, R36; 20_memory R51). -/
def ObsEq (s t : State) : Prop :=
  s.b.constr = t.b.constr ∧ s.c.constr = t.c.constr ∧
  (s.b.constr = true → s.b = t.b ∧ ∀ j < s.b.m.toNat, Memory.read s.arr j = Memory.read t.arr j) ∧
  (s.c.constr = true → s.c = t.c ∧ ∀ j < s.c.m.toNat, Memory.read s.cnt j = Memory.read t.cnt j) ∧
  s.ssat = t.ssat ∧ s.sunf = t.sunf ∧ s.front = t.front ∧ s.rsp = t.rsp ∧ s.stall = t.stall ∧ s.held = t.held ∧
  s.edges = t.edges ∧ s.taken = t.taken ∧ s.tick = t.tick

/-- The architectural state of two states is the same: registers, flags and arrays (10_state R20). -/
def ArchEq (s t : State) : Prop :=
  s.b = t.b ∧ s.c = t.c ∧ s.ssat = t.ssat ∧ s.sunf = t.sunf ∧ s.arr = t.arr ∧ s.cnt = t.cnt

/-- The fields of the ports and the front end other than the response are the same. -/
def PortsEq (s t : State) : Prop :=
  s.front = t.front ∧ s.stall = t.stall ∧ s.held = t.held ∧ s.edges = t.edges ∧ s.taken = t.taken ∧ s.tick = t.tick

/-! ### Lifetimes -/

/-- The coming edge ends the lifetime of unit B: a reset, or `DSTR.B` executed (42_bitset_filter R154). -/
def endsLifeB (s : State) : Prop :=
  (nextEdge s).rst = true ∨ ∃ h payload, readyCommand s = some (h, payload) ∧ decode h payload = .ok .dstrB

/-- From `s` the machine comes to `t` in steps none of which ends the lifetime of unit B. -/
inductive LiveB : State → State → Prop where
  | start (s : State) : LiveB s s
  | edge (s t u : State) : LiveB s t → ¬ endsLifeB t → step t = .next u → LiveB s u

/-- A command that leaves the tally of unit C's items as it is: none that ends the lifetime, and no insert or remove
that has its effect. -/
def keepsTally : Instr → Prop
  | .dstrC => False
  | .insC len _ => Config.hw.itemMax < len.toNat
  | .remC len _ => Config.hw.itemMax < len.toNat
  | _ => True

/-- The coming edge neither ends the lifetime of unit C nor changes the tally of its items: it is no reset, and the
command executed at it, if one is, keeps the tally. -/
def edgeKeepsTally (s : State) : Prop :=
  (nextEdge s).rst = false ∧
    ∀ h words i, readyCommand s = some (h, words) → decode h words = .ok i → keepsTally i

/-- One lifetime of unit C used as 43_counting_filter R177 supposes, step by step, with `n x` the number of inserts of `x`
less the number of its removals: every removal was of an item with `n x >= 1`, and no insert has met a full counter. -/
inductive HonestC : State → (List Byte →₀ ℕ) → Prop where
  | fresh (h : Word) (words : List Word) (k : BitVec 8) (m : BitVec 32) (seedA seedB : Word) (s t : State) :
      Memory.wf s.cnt = true → s.c.constr = false → Runs s h words → decode h words = .ok (.consC k m seedA seedB) →
      step s = .next t → t.c.constr = true → HonestC t 0
  | insert (h : Word) (words : List Word) (len : BitVec 16) (payload : List Word) (s t : State) (n : List Byte →₀ ℕ) :
      HonestC s n → Runs s h words → decode h words = .ok (.insC len payload) → len.toNat ≤ Config.hw.itemMax →
      step s = .next t → t.ssat = false → HonestC t (n + Finsupp.single (itemBytes len payload) 1)
  | remove (h : Word) (words : List Word) (len : BitVec 16) (payload : List Word) (s t : State) (n : List Byte →₀ ℕ) :
      HonestC s n → Runs s h words → decode h words = .ok (.remC len payload) → len.toNat ≤ Config.hw.itemMax →
      1 ≤ n (itemBytes len payload) → step s = .next t → HonestC t (n - Finsupp.single (itemBytes len payload) 1)
  | edge (s t : State) (n : List Byte →₀ ℕ) :
      HonestC s n → edgeKeepsTally s → step s = .next t → HonestC t n

/-- The sum over all items `x` of `n x * r(x, j)`, `r(x, j)` being how often slot `j` stands in `x`'s indices (R177). -/
noncomputable def tallyAt (r : UnitRegs) (n : List Byte →₀ ℕ) (j : Nat) : ℕ :=
  n.sum fun x c => c * (indices Config.hw r x).count j

/-- `n` successful `INS.C` of one item, one after the other. -/
inductive InsertsC (len : BitVec 16) (payload : List Word) : Nat → State → State → Prop where
  | zero (s : State) : InsertsC len payload 0 s s
  | succ (n : Nat) (s t u : State) : InsertsC len payload n s t → exec (.insC len payload) t = .next u →
      InsertsC len payload (n + 1) s u

end Sys2Proof.Machine
end

