-- ==== Sys2Proof/Certificates/Slice0/Obligations.lean ====
section
/-! DEFINITION. The statements for the provers, from the numbered rules of spec/. An outcome written
`.next { s with … }` is also the frame: every field not named is as before, every slot of every array among them. -/

open Sys2Proof Sys2Proof.Machine

/-! ### Encoding -/

/-- Decoding the words of a well-formed command gives the command back (30_encoding R71, R73, R74, R75). -/
def Obligations.EncodedCommandDecodesBack : Prop :=
  ∀ i : Instr, i.wf = true → decodeWords (encode i) = some i

/-- A header and payload that decode to a command are that command's words: no bit is dropped, padding included. -/
def Obligations.DecodedCommandEncodesBack : Prop :=
  ∀ (h : Word) (payload : List Word) (i : Instr), decode h payload = .ok i →
    encode i = h :: payload ∧ (payload.length = payloadWords h → i.wf = true)

/-- Decoding is total and sorts every header: a reserved opcode is illegal whatever stands in the other fields (30_encoding
R78), and a legal one with a nonzero must-be-zero field is refused (R77). That every other header with its
`PayloadWords(H)` words decodes to a command is the model's choice (log entry 14): R79 sends `REM` of unit B and an item that
is too long to their errors, which here are the answers of the commands themselves, in the same order. -/
def Obligations.EveryHeaderIsSorted : Prop :=
  ∀ (h : Word) (payload : List Word),
    (((opOf h).toNat = 0 ∨ 7 ≤ (opOf h).toNat) → decode h payload = .error .illegalOpcode) ∧
    ((1 ≤ (opOf h).toNat ∧ (opOf h).toNat ≤ 6) → fieldsOk h = false → decode h payload = .error .reservedField) ∧
    ((1 ≤ (opOf h).toNat ∧ (opOf h).toNat ≤ 6) → fieldsOk h = true → payload.length = payloadWords h →
      ∃ i : Instr, decode h payload = .ok i ∧ i.wf = true)

/-- Words written out in the spec decode to the commands they stand for (30_encoding R87, R71, R73, R74), the all-zero word
to none (R78), and a `DSTR.C` with `LEN` not 0 to none (R77). That `OP = 5`, `U = 0` decodes to a command named `REM.B`, which
R76 calls an encoding and no operation and R79 an error, is the model's choice (log entry 14). -/
def Obligations.SpecWordsDecode : Prop :=
  decodeWords [0x1003000000000040, 0x0, 0x1] = some (.consB 3 64 0 1) ∧
  decodeWords [0x1802000000000010, 0x5, 0x9] = some (.consC 2 16 5 9) ∧
  decodeWords [0x3000000100000000, 0x1] = some (.insB 1 [0x1]) ∧
  decodeWords [0x4800000900000000, 0x6867666564636261, 0x69] = some (.qryC 9 [0x6867666564636261, 0x69]) ∧
  decodeWords [0x4000000000000000] = some (.qryB 0 []) ∧
  decodeWords [0x5800000800000000, 0x2] = some (.remC 8 [0x2]) ∧
  decodeWords [0x6800000000000000] = some .statC ∧
  decodeWords [0x2000000000000000] = some .dstrB ∧
  decodeWords [0x5000000100000000, 0x1] = some (.remB 1 [0x1]) ∧
  decodeWords [0x0000000000000000] = none ∧
  decodeWords [0x2800000800000000] = none

/-- 30_encoding R72: the payload length is the function of `OP` and `LEN` given there; the core takes exactly that many
words after a header before the command is complete, whatever the header is. That of these words the first
`payloadRoom` are kept and those beyond it dropped is the model's choice (log entry 9). -/
def Obligations.FrontEndTakesExactlyThePayload : Prop :=
  ∀ (h : Word) (ws : List Word),
    payloadWords h = (if (opOf h).toNat = 1 then 2
      else if (opOf h).toNat = 3 ∨ (opOf h).toNat = 4 ∨ (opOf h).toNat = 5 then ((lenOf h).toNat + 7) / 8 else 0) ∧
    (ws.length = payloadWords h →
      (∀ n < payloadWords h, frontComplete (feed (h :: ws.take n)) = false) ∧
      feed (h :: ws) = some { header := h, payload := ws.take (payloadRoom Config.hw), owed := 0 })

/-- The bytes of an item packed by the host are the item the core reads (30_encoding R74, R84). -/
def Obligations.PackedItemIsReadBack : Prop :=
  ∀ item : List Byte, item.length ≤ 65535 → itemBytes (itemLenField item) (packItem item) = item ∧
    (packItem item).length = (item.length + 7) / 8

/-- 30_encoding R74: `item[j]` is bits `[8*(j mod 8)+7 : 8*(j mod 8)]` of payload word `floor(j/8)` for `0 <= j < LEN`, and
two commands whose words differ in padding only are the same command. -/
def Obligations.PaddingIsIgnored : Prop :=
  (∀ (len : BitVec 16) (payload : List Word), (itemBytes len payload).length = len.toNat ∧
    ∀ j < len.toNat, (itemBytes len payload).getD j 0 = (payload.getD (j / 8) 0).extractLsb' (8 * (j % 8)) 8) ∧
  ∀ (len : BitVec 16) (p q : List Word) (s : State),
    (∀ j < len.toNat, (p.getD (j / 8) 0).extractLsb' (8 * (j % 8)) 8 = (q.getD (j / 8) 0).extractLsb' (8 * (j % 8)) 8) →
    exec (.insB len p) s = exec (.insB len q) s ∧ exec (.qryB len p) s = exec (.qryB len q) s ∧
    exec (.remB len p) s = exec (.remB len q) s ∧ exec (.insC len p) s = exec (.insC len q) s ∧
    exec (.qryC len p) s = exec (.qryC len q) s ∧ exec (.remC len p) s = exec (.remC len q) s

/-! ### Running a command -/

/-- At an edge without reset, with no breach of the host's duty, the core executes the command it holds complete, on the
state with that command's words gone from the front end and the edge past. -/
def Obligations.StepRunsTheDecodedCommand : Prop :=
  ∀ (s : State) (h : Word) (payload : List Word) (i : Instr), Runs s h payload → decode h payload = .ok i →
    step s = exec i (onEdge s) ∧
    onEdge s = { s with front := none, held := stillHeld s (nextEdge s), edges := s.edges.tail, tick := s.tick + 1 }

/-- The host's placing of an instruction: the next step executes it. How a command comes to stand complete in the front
end is the model's choice (log entry 7). -/
def Obligations.PlacedInstructionRuns : Prop :=
  ∀ (s : State) (nbits w : Nat) (i : Instr), decodeTableWord nbits w = some i →
    step (s.withFetchWord nbits w) = exec i (onEdge (s.withFetchWord nbits w))

/-- 60_exceptions R202: an opcode 0 or 7 to 15 is answered with code 1, the `OP` and `U` bits echoed, nothing else
changed; it has no payload. -/
def Obligations.IllegalOpcodeIsAnswered : Prop :=
  (∀ (s : State) (h : Word) (payload : List Word), Runs s h payload → ((opOf h).toNat = 0 ∨ 7 ≤ (opOf h).toNat) →
    payloadWords h = 0 ∧
    step s = .next { onEdge s with rsp := some (Response.word { op := opOf h, u := unitOf h, code := 1 }) }) ∧
  (∀ s payload, Runs s 0x0 payload → step s = .next { onEdge s with rsp := some 0x0001000000000000 }) ∧
  (∀ s payload, Runs s 0xf800000000000000 payload → step s = .next { onEdge s with rsp := some 0xf801000000000000 })

/-- 60_exceptions R203: a legal opcode with a must-be-zero field that is not zero is answered with code 2, after the
payload its `OP` and `LEN` give; nothing else changes. -/
def Obligations.ReservedFieldIsAnswered : Prop :=
  (∀ (s : State) (h : Word) (payload : List Word), Runs s h payload →
    1 ≤ (opOf h).toNat → (opOf h).toNat ≤ 6 →
    (rsvOf h ≠ 0 ∨ ((opOf h).toNat = 1 ∧ lenOf h ≠ 0) ∨
      ((opOf h).toNat = 3 ∨ (opOf h).toNat = 4 ∨ (opOf h).toNat = 5) ∧ (kOf h ≠ 0 ∨ mOf h ≠ 0) ∨
      ((opOf h).toNat = 2 ∨ (opOf h).toNat = 6) ∧ (kOf h ≠ 0 ∨ lenOf h ≠ 0 ∨ mOf h ≠ 0)) →
    step s = .next { onEdge s with rsp := some (Response.word { op := opOf h, u := unitOf h, code := 2 }) }) ∧
  (∀ h : Word, payloadWords h = (if (opOf h).toNat = 1 then 2
      else if (opOf h).toNat = 3 ∨ (opOf h).toNat = 4 ∨ (opOf h).toNat = 5 then ((lenOf h).toNat + 7) / 8 else 0)) ∧
  (∀ s payload, Runs s 0x6000000000000001 payload → step s = .next { onEdge s with rsp := some 0x6002000000000000 })

/-- 60_exceptions R204: a well-formed header with `OP = 5`, `U = 0` is `REM.B`, and it is answered with code 3 whatever the
item is and whether or not unit B is constructed; `B.ARR` and all else is untouched. That the header decodes to a command
named `REM.B`, which R76 calls an encoding and no operation and R79 an error, is the model's choice (log entry 14). -/
def Obligations.RemBIsRefusedByItsCode : Prop :=
  ∀ (len : BitVec 16) (payload : List Word) (s : State),
    (payloadFits len payload = true → decode (header 5 .B 0 len 0) payload = .ok (.remB len payload)) ∧
    payloadWords (header 5 .B 0 len 0) = (len.toNat + 7) / 8 ∧
    exec (.remB len payload) s = .next { s with rsp := some 0x5003000000000000 }

/-- 60_exceptions R205: an item longer than `ITEM_MAX` is answered with code 4, whether or not the unit is constructed, in
every implementation; this one runs the command with its own `ITEM_MAX`. -/
def Obligations.LongItemIsAnswered : Prop :=
  (∀ (cfg : Config) (len : BitVec 16) (payload : List Word) (s : State), cfg.itemMax < len.toNat →
    insB cfg len payload s = .next { s with rsp := some 0x3004000000000000 } ∧
    qryB cfg len payload s = .next { s with rsp := some 0x4004000000000000 } ∧
    insC cfg len payload s = .next { s with rsp := some 0x3804000000000000 } ∧
    qryC cfg len payload s = .next { s with rsp := some 0x4804000000000000 } ∧
    remC cfg len payload s = .next { s with rsp := some 0x5804000000000000 }) ∧
  ∀ (len : BitVec 16) (payload : List Word) (s : State),
    exec (.insB len payload) s = insB Config.hw len payload s ∧ exec (.qryB len payload) s = qryB Config.hw len payload s ∧
    exec (.insC len payload) s = insC Config.hw len payload s ∧ exec (.qryC len payload) s = qryC Config.hw len payload s ∧
    exec (.remC len payload) s = remC Config.hw len payload s

/-- 60_exceptions R206: `INS.u`, `QRY.u`, `REM.C` (of an item no longer than `ITEM_MAX`) and `DSTR.u` on an unconstructed unit
are answered with code 5, and nothing else changes. -/
def Obligations.UnconstructedUnitIsAnswered : Prop :=
  ∀ (len : BitVec 16) (payload : List Word) (s : State),
    (s.b.constr = false →
      exec .dstrB s = .next { s with rsp := some 0x2005000000000000 } ∧
      (len.toNat ≤ Config.hw.itemMax →
        exec (.insB len payload) s = .next { s with rsp := some 0x3005000000000000 } ∧
        exec (.qryB len payload) s = .next { s with rsp := some 0x4005000000000000 })) ∧
    (s.c.constr = false →
      exec .dstrC s = .next { s with rsp := some 0x2805000000000000 } ∧
      (len.toNat ≤ Config.hw.itemMax →
        exec (.insC len payload) s = .next { s with rsp := some 0x3805000000000000 } ∧
        exec (.qryC len payload) s = .next { s with rsp := some 0x4805000000000000 } ∧
        exec (.remC len payload) s = .next { s with rsp := some 0x5805000000000000 }))

/-- 60_exceptions R207: `CONS.u` on a constructed unit is answered with code 6, whatever its operands, and the live filter
is untouched. -/
def Obligations.SecondConstructionIsAnswered : Prop :=
  ∀ (k : BitVec 8) (m : BitVec 32) (seedA seedB : Word) (s : State),
    (s.b.constr = true → exec (.consB k m seedA seedB) s = .next { s with rsp := some 0x1006000000000000 }) ∧
    (s.c.constr = true → exec (.consC k m seedA seedB) s = .next { s with rsp := some 0x1806000000000000 })

/-- 60_exceptions R208, R209, R210: `CONS.u` on an unconstructed unit with `M = 0` is answered with code 7, with `M != 0` and
`K = 0` with code 8, with both not 0 and `M > M_MAX_u` with code 9, in every implementation; nothing else changes, so the
unit stays unconstructed. -/
def Obligations.BadSizeIsAnswered : Prop :=
  ∀ (k : BitVec 8) (m : BitVec 32) (seedA seedB : Word) (s : State),
    (s.b.constr = false →
      (m = 0 → exec (.consB k m seedA seedB) s = .next { s with rsp := some 0x1007000000000000 }) ∧
      (m ≠ 0 → k = 0 → exec (.consB k m seedA seedB) s = .next { s with rsp := some 0x1008000000000000 }) ∧
      (∀ cfg : Config, m ≠ 0 → k ≠ 0 → cfg.mMaxB < m.toNat →
        consB cfg k m seedA seedB s = .next { s with rsp := some 0x1009000000000000 })) ∧
    (s.c.constr = false →
      (m = 0 → exec (.consC k m seedA seedB) s = .next { s with rsp := some 0x1807000000000000 }) ∧
      (m ≠ 0 → k = 0 → exec (.consC k m seedA seedB) s = .next { s with rsp := some 0x1808000000000000 }) ∧
      (∀ cfg : Config, m ≠ 0 → k ≠ 0 → cfg.mMaxC < m.toNat →
        consC cfg k m seedA seedB s = .next { s with rsp := some 0x1809000000000000 })) ∧
    exec (.consB k m seedA seedB) s = consB Config.hw k m seedA seedB s ∧
    exec (.consC k m seedA seedB) s = consC Config.hw k m seedA seedB s

/-- 60_exceptions R200, for any command: a response whose code is not 0 is `OP`, `U` and the code, all its other fields 0, and
no register, flag or array slot has changed; the front end waits for the next header. -/
def Obligations.ErrorsChangeNothingElse : Prop :=
  ∀ (s t : State) (h : Word) (payload : List Word) (r : Word), Runs s h payload → step s = .next t →
    t.rsp = some r → codeOf r ≠ 0 →
    t = { onEdge s with rsp := some r } ∧ t.front = none ∧
    r = Response.word { op := opOf h, u := unitOf h, code := codeOf r }

/-- 60_exceptions R212: when several errors apply to a command, the one of the lowest code is reported; where none applies
the code is 0. -/
def Obligations.LowestErrorCodeIsReported : Prop :=
  ∀ (s : State) (h : Word) (payload : List Word), Inv s → Runs s h payload →
    ∃ t r, step s = .next t ∧ t.rsp = some r ∧
      ((codeOf r = 0 ∧ ∀ e, ¬ errorApplies h s e) ∨
        ∃ e, codeOf r = errorNumber e ∧ errorApplies h s e ∧
          ∀ e', errorApplies h s e' → (errorNumber e).toNat ≤ (errorNumber e').toNat)

/-- 30_encoding R80, 20_memory R59: an edge at which a command runs puts exactly one response in the empty response place, the
header's `OP` and `U` echoed in it; every other edge without reset leaves the responses, taken and waiting, as they
were and in their order. -/
def Obligations.OneResponsePerCommandInOrder : Prop :=
  ∀ s t : State, (nextEdge s).rst = false → step s = .next t →
    (∀ h payload, readyCommand s = some (h, payload) →
      s.rsp = none ∧ t.taken = s.taken ∧ ∃ r, t.rsp = some r ∧ opOf r = opOf h ∧ unitOf r = unitOf h) ∧
    (readyCommand s = none → t.taken ++ t.rsp.toList = s.taken ++ s.rsp.toList)

/-! ### Construction, destruction, status -/

/-- 40_sizing_and_construction R110, R245: a `CONS.B` with valid operands on an unconstructed unit B sets its parameters and
seeds, clears slots `0 .. m-1`, leaves every other slot, and constructs the unit; else the first of its errors that
applies, in the order given, is its answer, and nothing else changes. -/
def Obligations.ConsBConstructs : Prop :=
  ∀ (k : BitVec 8) (m : BitVec 32) (seedA seedB : Word) (s : State),
    decode (header 1 .B k 0 m) [seedA, seedB] = .ok (.consB k m seedA seedB) ∧
    (s.b.constr = false → m ≠ 0 → k ≠ 0 → m.toNat ≤ Config.hw.mMaxB →
      ∃ t, exec (.consB k m seedA seedB) s = .next t ∧
        t = { s with b := { constr := true, m := m, k := k, seedA := seedA, seedB := seedB }, arr := t.arr,
                     rsp := some 0x1000000000000000 } ∧
        ∀ j, Memory.read t.arr j = if j < m.toNat then 0 else Memory.read s.arr j) ∧
    (∀ cfg : Config, s.b.constr = true ∨ m = 0 ∨ k = 0 ∨ cfg.mMaxB < m.toNat →
      consB cfg k m seedA seedB s = .next { s with rsp := some (Response.word { op := 1, u := .B, code :=
        if s.b.constr then 6 else if m = 0 then 7 else if k = 0 then 8 else 9 }) }) ∧
    exec (.consB k m seedA seedB) s = consB Config.hw k m seedA seedB s

/-- 40_sizing_and_construction R111: the same for unit C, whose sticky flags are cleared as well. -/
def Obligations.ConsCConstructs : Prop :=
  ∀ (k : BitVec 8) (m : BitVec 32) (seedA seedB : Word) (s : State),
    decode (header 1 .C k 0 m) [seedA, seedB] = .ok (.consC k m seedA seedB) ∧
    (s.c.constr = false → m ≠ 0 → k ≠ 0 → m.toNat ≤ Config.hw.mMaxC →
      ∃ t, exec (.consC k m seedA seedB) s = .next t ∧
        t = { s with c := { constr := true, m := m, k := k, seedA := seedA, seedB := seedB }, cnt := t.cnt,
                     ssat := false, sunf := false, rsp := some 0x1800000000000000 } ∧
        ∀ j, Memory.read t.cnt j = if j < m.toNat then 0 else Memory.read s.cnt j) ∧
    (∀ cfg : Config, s.c.constr = true ∨ m = 0 ∨ k = 0 ∨ cfg.mMaxC < m.toNat →
      consC cfg k m seedA seedB s = .next { s with rsp := some (Response.word { op := 1, u := .C, code :=
        if s.c.constr then 6 else if m = 0 then 7 else if k = 0 then 8 else 9 }) }) ∧
    exec (.consC k m seedA seedB) s = consC Config.hw k m seedA seedB s

/-- 40_sizing_and_construction R112, R113: `DSTR.u` on a constructed unit clears its `CONSTR`, and `DSTR.C` the sticky flags.
That `M`, `K`, the seeds and the array stand, unobservable, is 10_state R26, R27, R30 read as the model reads them (log
entry 4). -/
def Obligations.DestroyEndsTheLifetime : Prop :=
  ∀ s : State,
    decode (header 2 .B 0 0 0) [] = .ok .dstrB ∧ decode (header 2 .C 0 0 0) [] = .ok .dstrC ∧
    (s.b.constr = true → exec .dstrB s =
      .next { s with b := { s.b with constr := false }, rsp := some 0x2000000000000000 }) ∧
    (s.c.constr = true → exec .dstrC s =
      .next { s with c := { s.c with constr := false }, ssat := false, sunf := false, rsp := some 0x2800000000000000 }) ∧
    (s.b.constr = false → exec .dstrB s = .next { s with rsp := some 0x2005000000000000 }) ∧
    (s.c.constr = false → exec .dstrC s = .next { s with rsp := some 0x2805000000000000 })

/-- 40_sizing_and_construction R114, R115: `STAT.u` returns `CONSTR`, `K`, `M` and, for unit C, the sticky flags, zeros while the
unit is unconstructed; it changes nothing. The response is given field by field. -/
def Obligations.StatusReadsTheParameters : Prop :=
  ∀ s : State,
    decode (header 6 .B 0 0 0) [] = .ok .statB ∧ decode (header 6 .C 0 0 0) [] = .ok .statC ∧
    (∃ r, exec .statB s = .next { s with rsp := some r } ∧ r.extractLsb' 48 16 = 0x6000 ∧ r.extractLsb' 36 4 = 0 ∧
      r.extractLsb' 33 2 = 0 ∧ r.extractLsb' 32 1 = 0 ∧ r.extractLsb' 35 1 = BitVec.ofBool s.b.constr ∧
      r.extractLsb' 40 8 = (if s.b.constr then s.b.k else 0) ∧ r.extractLsb' 0 32 = (if s.b.constr then s.b.m else 0)) ∧
    (∃ r, exec .statC s = .next { s with rsp := some r } ∧ r.extractLsb' 48 16 = 0x6800 ∧ r.extractLsb' 36 4 = 0 ∧
      r.extractLsb' 32 1 = 0 ∧ r.extractLsb' 35 1 = BitVec.ofBool s.c.constr ∧
      r.extractLsb' 34 1 = BitVec.ofBool (s.c.constr && s.sunf) ∧
      r.extractLsb' 33 1 = BitVec.ofBool (s.c.constr && s.ssat) ∧
      r.extractLsb' 40 8 = (if s.c.constr then s.c.k else 0) ∧ r.extractLsb' 0 32 = (if s.c.constr then s.c.m else 0))

/-- 10_state R26: `u.M`, `u.K` and the seeds are written by a successful `CONS.u`, which needs `u.CONSTR = 0`, and by
nothing else. That this holds over a `DSTR.u` and a reset edge too, after which R36, R112 and R241 call the values
unspecified, is the model's choice (log entry 4). -/
def Obligations.ParametersAreImmutable : Prop :=
  ∀ s t : State, step s = .next t →
    ((t.b.m = s.b.m ∧ t.b.k = s.b.k ∧ t.b.seedA = s.b.seedA ∧ t.b.seedB = s.b.seedB) ∨
      ∃ h payload k m seedA seedB, Runs s h payload ∧ decode h payload = .ok (.consB k m seedA seedB) ∧
        s.b.constr = false ∧ t.b = { constr := true, m := m, k := k, seedA := seedA, seedB := seedB }) ∧
    ((t.c.m = s.c.m ∧ t.c.k = s.c.k ∧ t.c.seedA = s.c.seedA ∧ t.c.seedB = s.c.seedB) ∨
      ∃ h payload k m seedA seedB, Runs s h payload ∧ decode h payload = .ok (.consC k m seedA seedB) ∧
        s.c.constr = false ∧ t.c = { constr := true, m := m, k := k, seedA := seedA, seedB := seedB })

/-- 10_state R30: a slot of `B.ARR` changes only in `CONS.B`, to 0, and `INS.B`, to 1; a slot of `C.CNT` only in `CONS.C`, to 0,
`INS.C`, upwards and not past 15, and `REM.C`, downwards. No command of one unit touches the other's array. That the slots
stand over a `DSTR.u` and a reset edge too, after which R36, R112 and R241 call them unspecified, is the model's choice (log
entry 4). -/
def Obligations.SlotsChangeOnlyByTheirCommands : Prop :=
  ∀ s t : State, Memory.wf s.cnt = true → step s = .next t → ∀ j,
    (Memory.read t.arr j ≠ Memory.read s.arr j → ∃ h payload, Runs s h payload ∧
      ((∃ k m x y, decode h payload = .ok (.consB k m x y) ∧ Memory.read t.arr j = 0) ∨
        ∃ len p, decode h payload = .ok (.insB len p) ∧ Memory.read t.arr j = 1)) ∧
    (Memory.read t.cnt j ≠ Memory.read s.cnt j → ∃ h payload, Runs s h payload ∧
      ((∃ k m x y, decode h payload = .ok (.consC k m x y) ∧ Memory.read t.cnt j = 0) ∨
        (∃ len p, decode h payload = .ok (.insC len p) ∧ (Memory.read s.cnt j).toNat < (Memory.read t.cnt j).toNat ∧
          (Memory.read t.cnt j).toNat ≤ 15) ∨
        ∃ len p, decode h payload = .ok (.remC len p) ∧ (Memory.read t.cnt j).toNat < (Memory.read s.cnt j).toNat))

/-- 10_state R20: the two units share no state. A command of unit B leaves all of unit C's state, and a command of unit C
all of unit B's. -/
def Obligations.UnitsAreIndependent : Prop :=
  ∀ (i : Instr) (s t : State), exec i s = .next t →
    match i with
    | .consB _ _ _ _ | .dstrB | .insB _ _ | .qryB _ _ | .remB _ _ | .statB =>
      t.c = s.c ∧ t.cnt = s.cnt ∧ t.ssat = s.ssat ∧ t.sunf = s.sunf ∧ PortsEq s t
    | .consC _ _ _ _ | .dstrC | .insC _ _ | .qryC _ _ | .remC _ _ | .statC =>
      t.b = s.b ∧ t.arr = s.arr ∧ PortsEq s t

/-! ### Unit B -/

/-- 42_bitset_filter R151: `INS.B` sets the bit at each of the item's `k` indices and leaves every other bit; it responds with
`PK = B.K`. Code 4 for an item that is too long comes before code 5 for a unit that is not constructed. -/
def Obligations.InsBSetsTheBits : Prop :=
  ∀ (len : BitVec 16) (payload : List Word) (s : State),
    (payloadFits len payload = true → decode (header 3 .B 0 len 0) payload = .ok (.insB len payload)) ∧
    (Accepts .B len s → ∃ t, exec (.insB len payload) s = .next t ∧
      t = { s with arr := t.arr, rsp := some (Response.word { op := 3, u := .B, pk := s.b.k }) } ∧
      ∀ j, Memory.read t.arr j =
        if ∃ i < s.b.k.toNat, idx Config.hw s.b (itemBytes len payload) i = j then 1 else Memory.read s.arr j) ∧
    (∀ cfg : Config, cfg.itemMax < len.toNat →
      insB cfg len payload s = .next { s with rsp := some 0x3004000000000000 }) ∧
    (len.toNat ≤ Config.hw.itemMax → s.b.constr = false →
      exec (.insB len payload) s = .next { s with rsp := some 0x3005000000000000 })

/-- 42_bitset_filter R152, 30_encoding R81: `QRY.B` answers 1 with `PK = B.K` where all `k` bits are 1, and 0 with `PK = i + 1` where
index number `i` is the first whose bit is 0; it changes nothing. -/
def Obligations.QryBAnswers : Prop :=
  ∀ (len : BitVec 16) (payload : List Word) (s : State),
    (payloadFits len payload = true → decode (header 4 .B 0 len 0) payload = .ok (.qryB len payload)) ∧
    (Accepts .B len s →
      ((∀ i < s.b.k.toNat, Memory.read s.arr (idx Config.hw s.b (itemBytes len payload) i) = 1) →
        exec (.qryB len payload) s =
          .next { s with rsp := some (Response.word { op := 4, u := .B, res := true, pk := s.b.k }) }) ∧
      ∀ i < s.b.k.toNat, (∀ i' < i, Memory.read s.arr (idx Config.hw s.b (itemBytes len payload) i') = 1) →
        Memory.read s.arr (idx Config.hw s.b (itemBytes len payload) i) = 0 →
        exec (.qryB len payload) s =
          .next { s with rsp := some (Response.word { op := 4, u := .B, pk := BitVec.ofNat 8 (i + 1) }) }) ∧
    (∀ cfg : Config, cfg.itemMax < len.toNat →
      qryB cfg len payload s = .next { s with rsp := some 0x4004000000000000 }) ∧
    (len.toNat ≤ Config.hw.itemMax → s.b.constr = false →
      exec (.qryB len payload) s = .next { s with rsp := some 0x4005000000000000 })

/-- 42_bitset_filter R154, no false negatives: after an `INS.B` of an item that responded without error, and whatever the machine
does short of a reset or a `DSTR.B`, a `QRY.B` of that item answers 1 with `PK = B.K`. -/
def Obligations.NoFalseNegativesOnUnitB : Prop :=
  ∀ (len : BitVec 16) (p q : List Word) (s t u : State) (r : Word), exec (.insB len p) s = .next t →
    t.rsp = some r → codeOf r = 0 → LiveB t u → itemBytes len q = itemBytes len p →
    exec (.qryB len q) u = .next { u with rsp := some (Response.word { op := 4, u := .B, res := true, pk := u.b.k }) }

/-- 42_bitset_filter R155: an insert repeated leaves the array of the first, two inserts leave one array in either order, and
in every step from a state in which unit B is constructed the bits that are 1 stay 1. That they stay so over the step that
ends the lifetime too, a `DSTR.B` or a reset edge, after which R112 and R241 call them unspecified, is the model's choice (log
entry 4). -/
def Obligations.InsertsOnUnitBCommute : Prop :=
  (∀ (len : BitVec 16) (p : List Word) (s t u : State), Memory.wf s.arr = true →
    exec (.insB len p) s = .next t → exec (.insB len p) t = .next u → u.arr = t.arr) ∧
  (∀ (len len' : BitVec 16) (p p' : List Word) (s t u t' u' : State), Memory.wf s.arr = true →
    exec (.insB len p) s = .next t → exec (.insB len' p') t = .next u →
    exec (.insB len' p') s = .next t' → exec (.insB len p) t' = .next u' → u.arr = u'.arr) ∧
  (∀ (s t : State) (j : Nat), s.b.constr = true → step s = .next t → Memory.read s.arr j = 1 → Memory.read t.arr j = 1)

/-! ### Unit C -/

/-- 43_counting_filter R171, 70_reset_and_hazards R248: `INS.C` raises each counter by as often as its number stands in the item's
index sequence, not past 15; `SAT` is 1 exactly when some increment met 15, and joins the sticky flag; `PK = C.K`. -/
def Obligations.InsCCountsUp : Prop :=
  ∀ (len : BitVec 16) (payload : List Word) (s : State),
    (payloadFits len payload = true → decode (header 3 .C 0 len 0) payload = .ok (.insC len payload)) ∧
    (Accepts .C len s → ∃ t sat, exec (.insC len payload) s = .next t ∧
      t = { s with cnt := t.cnt, ssat := s.ssat || sat,
                   rsp := some (Response.word { op := 3, u := .C, sat := sat, pk := s.c.k }) } ∧
      (∀ j, (Memory.read t.cnt j).toNat =
        min 15 ((Memory.read s.cnt j).toNat + (indices Config.hw s.c (itemBytes len payload)).count j)) ∧
      (sat = true ↔ ∃ j, 15 < (Memory.read s.cnt j).toNat + (indices Config.hw s.c (itemBytes len payload)).count j)) ∧
    (∀ cfg : Config, cfg.itemMax < len.toNat →
      insC cfg len payload s = .next { s with rsp := some 0x3804000000000000 }) ∧
    (len.toNat ≤ Config.hw.itemMax → s.c.constr = false →
      exec (.insC len payload) s = .next { s with rsp := some 0x3805000000000000 })

/-- 43_counting_filter R172, 30_encoding R81: `QRY.C` answers 1 with `PK = C.K` where no counter of the item is 0, and 0 with
`PK = i + 1` where index number `i` is the first whose counter is 0; it changes nothing. -/
def Obligations.QryCAnswers : Prop :=
  ∀ (len : BitVec 16) (payload : List Word) (s : State),
    (payloadFits len payload = true → decode (header 4 .C 0 len 0) payload = .ok (.qryC len payload)) ∧
    (Accepts .C len s →
      ((∀ i < s.c.k.toNat, Memory.read s.cnt (idx Config.hw s.c (itemBytes len payload) i) ≠ 0) →
        exec (.qryC len payload) s =
          .next { s with rsp := some (Response.word { op := 4, u := .C, res := true, pk := s.c.k }) }) ∧
      ∀ i < s.c.k.toNat, (∀ i' < i, Memory.read s.cnt (idx Config.hw s.c (itemBytes len payload) i') ≠ 0) →
        Memory.read s.cnt (idx Config.hw s.c (itemBytes len payload) i) = 0 →
        exec (.qryC len payload) s =
          .next { s with rsp := some (Response.word { op := 4, u := .C, pk := BitVec.ofNat 8 (i + 1) }) }) ∧
    (∀ cfg : Config, cfg.itemMax < len.toNat →
      qryC cfg len payload s = .next { s with rsp := some 0x4804000000000000 }) ∧
    (len.toNat ≤ Config.hw.itemMax → s.c.constr = false →
      exec (.qryC len payload) s = .next { s with rsp := some 0x4805000000000000 })

/-- 43_counting_filter R173, 70_reset_and_hazards R248: `REM.C` lowers each counter by as often as its number stands in the item's
index sequence, not below 0; `UNF` is 1 exactly when some decrement met 0, and joins the sticky flag; `PK = C.K`. -/
def Obligations.RemCCountsDown : Prop :=
  ∀ (len : BitVec 16) (payload : List Word) (s : State),
    (payloadFits len payload = true → decode (header 5 .C 0 len 0) payload = .ok (.remC len payload)) ∧
    (Accepts .C len s → Memory.wf s.cnt = true → ∃ t unf, exec (.remC len payload) s = .next t ∧
      t = { s with cnt := t.cnt, sunf := s.sunf || unf,
                   rsp := some (Response.word { op := 5, u := .C, unf := unf, pk := s.c.k }) } ∧
      (∀ j, (Memory.read t.cnt j).toNat =
        (Memory.read s.cnt j).toNat - (indices Config.hw s.c (itemBytes len payload)).count j) ∧
      (unf = true ↔ ∃ j, (Memory.read s.cnt j).toNat < (indices Config.hw s.c (itemBytes len payload)).count j)) ∧
    (∀ cfg : Config, cfg.itemMax < len.toNat →
      remC cfg len payload s = .next { s with rsp := some 0x5804000000000000 }) ∧
    (len.toNat ≤ Config.hw.itemMax → s.c.constr = false →
      exec (.remC len payload) s = .next { s with rsp := some 0x5805000000000000 })

/-- 43_counting_filter R174: `INS.C` lowers no counter and `REM.C` raises none; after 15 or more inserts of one item each of its
counters is 15, and the next insert of it responds `SAT = 1` and leaves them so. -/
def Obligations.CountersSaturate : Prop :=
  (∀ (len : BitVec 16) (p : List Word) (s t : State) (j : Nat), exec (.insC len p) s = .next t →
    (Memory.read s.cnt j).toNat ≤ (Memory.read t.cnt j).toNat) ∧
  (∀ (len : BitVec 16) (p : List Word) (s t : State) (j : Nat), Memory.wf s.cnt = true → exec (.remC len p) s = .next t →
    (Memory.read t.cnt j).toNat ≤ (Memory.read s.cnt j).toNat) ∧
  ∀ (len : BitVec 16) (p : List Word) (n : Nat) (s t : State), Memory.wf s.cnt = true → Accepts .C len s →
    s.c.k ≠ 0 → 15 ≤ n → InsertsC len p n s t →
    (∀ i < s.c.k.toNat, Memory.read t.cnt (idx Config.hw s.c (itemBytes len p) i) = 15) ∧
    ∃ u, exec (.insC len p) t = .next u ∧ u.cnt = t.cnt ∧
      u.rsp = some (Response.word { op := 3, u := .C, sat := true, pk := s.c.k })

/-- 43_counting_filter R175, the round trip: an `INS.C` that responded `SAT = 0`, then `REM.C` of the same item, leaves every counter as
before; so `QRY.C` of the item answers after it as it would have before it. -/
def Obligations.InsertThenRemoveRestores : Prop :=
  ∀ (len : BitVec 16) (p : List Word) (s t : State), Memory.wf s.cnt = true → Accepts .C len s →
    exec (.insC len p) s = .next t → t.rsp = some (Response.word { op := 3, u := .C, sat := false, pk := s.c.k }) →
    ∃ u, exec (.remC len p) t = .next u ∧ u.cnt = s.cnt ∧
      u.rsp = some (Response.word { op := 5, u := .C, unf := false, pk := s.c.k }) ∧
      ∃ v w r, exec (.qryC len p) s = .next v ∧ exec (.qryC len p) u = .next w ∧ v.rsp = some r ∧ w.rsp = some r ∧
        ((∃ i < s.c.k.toNat, Memory.read s.cnt (idx Config.hw s.c (itemBytes len p) i) = 0) → r.extractLsb' 32 1 = 0)

/-- 43_counting_filter R177: in every state of a lifetime of unit C, step by step, in which every removal was of an item
present and no insert has met a full counter, each counter is the sum of its items' multiplicities, no removal has met
0, and a query of a present item answers 1. -/
def Obligations.HonestUseHasNoFalseNegatives : Prop :=
  ∀ (s : State) (n : List Byte →₀ ℕ), HonestC s n →
    (∀ j < s.c.m.toNat, (Memory.read s.cnt j).toNat = tallyAt s.c n j) ∧ s.sunf = false ∧
    ∀ (len : BitVec 16) (p : List Word), len.toNat ≤ Config.hw.itemMax → 1 ≤ n (itemBytes len p) →
      exec (.qryC len p) s = .next { s with rsp := some (Response.word { op := 4, u := .C, res := true, pk := s.c.k }) }

/-- 42_bitset_filter R156, 43_counting_filter R178: a query or a status read changes nothing but the response, whatever it answers. -/
def Obligations.QueriesArePure : Prop :=
  ∀ (len : BitVec 16) (p : List Word) (s t : State),
    (exec (.qryB len p) s = .next t ∨ exec (.qryC len p) s = .next t ∨ exec .statB s = .next t ∨
      exec .statC s = .next t) → t = { s with rsp := t.rsp }

/-! ### The indexer -/

/-- 41_index_generator R133, R130: a constructed unit's indexer yields `K` slot numbers, each in `[0, M)`. -/
def Obligations.IndicesAreInRange : Prop :=
  ∀ (r : UnitRegs) (item : List Byte), 1 ≤ r.m.toNat →
    (indices Config.hw r item).length = r.k.toNat ∧
    (∀ j ∈ indices Config.hw r item, j < r.m.toNat) ∧
    ∀ i < r.k.toNat, (indices Config.hw r item)[i]? = some (((Config.hw.hash r.seedA item).toNat +
      i * (Config.hw.hash r.seedB item).toNat) % r.m.toNat)

/-- 41_index_generator R141: worked values of the exact reading, those among them that tell it from a 64-bit one. -/
def Obligations.WorkedIndexValues : Prop :=
  (List.range 4).map (indexFormula 10 3 7) = [3, 6, 2, 5] ∧
  (List.range 3).map (indexFormula 5 14 7) = [5, 5, 5] ∧
  (List.range 3).map (indexFormula 123 456 1) = [0, 0, 0] ∧
  (List.range 6).map (indexFormula 6 9 4) = [2, 3, 0, 1, 2, 3] ∧
  (List.range 2).map (indexFormula 0 0 9) = [0, 0] ∧
  (List.range 4).map (indexFormula 0xffffffffffffffff 0xffffffffffffffff 16) = [15, 14, 13, 12] ∧
  (List.range 3).map (indexFormula 0xffffffffffffffff 0xffffffffffffffff 10) = [5, 0, 5] ∧
  (List.range 4).map (indexFormula 0x8000000000000000 0x8000000000000001 1000) = [808, 617, 426, 235] ∧
  (List.range 3).map (indexFormula 0xffffffffffffffff 1 4294967295) = [0, 1, 2]

/-- 41_index_generator R138: the hardware form, two reductions and then an add and a compare-and-subtract for each index, is
the index formula at every number; and the indexer built of it shows exactly the formula's indices, each valid, below `m`
and in its order, and says `last` at number `k - 1` alone (R139). When each index is shown, number 0 at `start` and number
`i` after `i` times `next`, is the model's choice (log entry 17): R139 names the signals and gives no timing. -/
def Obligations.HardwareIndexerIsTheFormula : Prop :=
  (∀ (h1 h2 : Word) (m i : Nat), 1 ≤ m →
    (indexStep m (h2.toNat % m))^[i] (h1.toNat % m) = indexFormula h1 h2 m i) ∧
  ∀ (h1 h2 : Word) (m : BitVec 32) (k : BitVec 8), 1 ≤ m.toNat → 1 ≤ k.toNat →
    (∀ n ≤ k.toNat, indexerRun n (indexerStart h1 h2 m k) = (List.range n).map (indexFormula h1 h2 m.toNat)) ∧
    ∀ i < k.toNat,
      (indexerOut (indexerNext^[i] (indexerStart h1 h2 m k))).idxValid = true ∧
      (indexerOut (indexerNext^[i] (indexerStart h1 h2 m k))).idx.toNat = indexFormula h1 h2 m.toNat i ∧
      (indexerOut (indexerNext^[i] (indexerStart h1 h2 m k))).idx.toNat < m.toNat ∧
      ((indexerOut (indexerNext^[i] (indexerStart h1 h2 m k))).last = true ↔ i = k.toNat - 1)

/-- 20_memory R53, R54, R55, 00_scope R14: a write sets its slot and leaves every other; `BitSet`, `CntInc` and `CntDec` act on one
slot, the counters saturating at 15 and floored at 0, and their marks say whether the counter was at its end already. -/
def Obligations.SlotOperationsActOnOneSlot : Prop :=
  (∀ (w : Nat) (a : Memory w) (j : Nat) (v : BitVec w), Memory.wf a = true →
    Memory.wf (Memory.write a j v) = true ∧
    ∀ i, Memory.read (Memory.write a j v) i = if i = j then v else Memory.read a i) ∧
  (∀ (a : Memory 1) (j i : Nat), Memory.read (bitSet a j) i = if i = j then 1 else Memory.read a i) ∧
  ∀ (a : Memory 4) (j i : Nat), Memory.wf a = true →
    (Memory.read (cntInc a j) i).toNat =
      (if i = j then min 15 ((Memory.read a j).toNat + 1) else (Memory.read a i).toNat) ∧
    (Memory.read (cntDec a j) i).toNat = (if i = j then (Memory.read a j).toNat - 1 else (Memory.read a i).toNat) ∧
    (satMark (Memory.read a j) = true ↔ (Memory.read a j).toNat = 15) ∧
    (unfMark (Memory.read a j) = true ↔ (Memory.read a j).toNat = 0)

/-! ### Reset and the ports -/

/-- 70_reset_and_hazards R241, R240: an edge with `rst = 1` clears `CONSTR` of both units and the sticky flags, drops the partial
command and the response, and transfers nothing, whatever else the pins and the state are. That the other registers and
the arrays stand is the model's choice (log entry 4), that the host's duty to keep a word ends there, `held` being none
whatever the host presents, is so too (log entry 8), and so are the fields `stall`, `edges` and `tick` (log entries 6, 7). -/
def Obligations.ResetEdgeUnconstructs : Prop :=
  ∀ s : State, (nextEdge s).rst = true →
    step s = .next { s with b := { s.b with constr := false }, c := { s.c with constr := false }, ssat := false,
                            sunf := false, front := none, rsp := none, stall := 0, held := none,
                            edges := s.edges.tail, tick := s.tick + 1 } ∧
    wordTransfers s (nextEdge s) = false ∧ responseTransfers s (nextEdge s) = false

/-- 10_state R36, 70_reset_and_hazards R243: after reset both units are unconstructed, the sticky flags are 0, no command is partly
received, no response waits, and the core waits with `cmd_ready = 1` for a header. -/
def Obligations.ResetStateWaits : Prop :=
  State.reset.b.constr = false ∧ State.reset.c.constr = false ∧ State.reset.ssat = false ∧ State.reset.sunf = false ∧
  State.reset.front = none ∧ State.reset.rsp = none ∧ rspValid State.reset = false ∧ cmdReady State.reset = true

/-- 30_encoding R83: at an edge without reset and breach, a command word is transferred exactly when `cmd_valid` and `cmd_ready`
are 1, and it is the value of `cmd_data`; a response word exactly when `rsp_valid` and `rsp_ready` are 1; until then the
core keeps the response unchanged. At such an edge no register, flag or slot changes unless a command runs. -/
def Obligations.HandshakeTransfers : Prop :=
  ∀ s : State, (nextEdge s).rst = false → hostBreach s (nextEdge s) = false → readyCommand s = none →
    ∃ t, step s = .next t ∧ ArchEq s t ∧
      t.front = (if (nextEdge s).cmdValid && cmdReady s then some (acceptWord Config.hw (nextEdge s).cmdData s.front)
        else s.front) ∧
      ((nextEdge s).rspReady = true → t.rsp = none ∧ t.taken = s.taken ++ s.rsp.toList) ∧
      ((nextEdge s).rspReady = false → t.rsp = s.rsp ∧ t.taken = s.taken) ∧
      t.held = (if (nextEdge s).cmdValid && !cmdReady s then some (nextEdge s).cmdData else none)

/-- 70_reset_and_hazards R250, 93 U17: a host that drops or changes a word it presents before it is transferred is refused: the
spec defines no behaviour there, and the refusal is the model's (log entry 8). -/
def Obligations.HostBreachIsRefused : Prop :=
  ∀ (s : State) (w : Word), s.held = some w → (nextEdge s).rst = false →
    ((nextEdge s).cmdValid = false ∨ (nextEdge s).cmdData ≠ w) → step s = .refused .hostWordChanged

/-- 60_exceptions R219, 70_reset_and_hazards R243: a core with no command and no response waiting is ready for a word. That one
that holds a complete command takes none is the model's choice (log entry 6). -/
def Obligations.IdleCoreIsReady : Prop :=
  ∀ s : State, Inv s →
    (s.front = none → s.rsp = none → cmdReady s = true) ∧ (frontComplete s.front = true → cmdReady s = false)

/-- 70_reset_and_hazards R251: once all words of a command have been transferred and no response waits, the response is there
after finitely many edges, with every host that meanwhile neither resets nor breaks its duty. The number, the edges of the
core's own work and one more, is how the model says "finitely many" (log entry 6). -/
def Obligations.EveryCommandEnds : Prop :=
  ∀ (s : State) (p : PartialCommand), Inv s → s.front = some p → p.owed = 0 → s.rsp = none → HostKeeps (s.stall + 1) s →
    ∃ t, Sys2Proof.core.run (s.stall + 1) s = .next t ∧ t.front = none ∧ t.rsp ≠ none

/-- 30_encoding R83, 70_reset_and_hazards R252: what a command does depends on the registers, flags and arrays alone, not on the
number of the edge, the host's pins, the work left or the responses taken. -/
def Obligations.CommandsDependOnTheArchitecture : Prop :=
  ∀ (i : Instr) (s s' t : State), ArchEq s s' → exec i s = .next t →
    ∃ t', exec i s' = .next t' ∧ ArchEq t t' ∧ t.rsp = t'.rsp ∧ PortsEq s t ∧ PortsEq s' t'

/-- 10_state R22, R36: what an unconstructed unit's registers and array hold, and what stands in slots at or above `M`, no host
can observe: two states that differ in nothing else take the same step, and differ in nothing else after it. -/
def Obligations.UnconstructedContentsAreUnobservable : Prop :=
  ∀ s t s' : State, Inv s → Inv t → ObsEq s t → step s = .next s' → ∃ t', step t = .next t' ∧ ObsEq s' t'

/-! ### The invariant -/

/-- Every step keeps the invariant (10_state R23, R24, R28, R29, R33; 20_memory R51; 30_encoding R80). -/
def Obligations.StepKeepsTheInvariant : Prop :=
  ∀ s t : State, Inv s → step s = .next t → Inv t

/-- The state after reset meets the invariant. -/
def Obligations.ResetMeetsTheInvariant : Prop := Inv State.reset

/-- From a state that meets the invariant no step is a fault: the two faults are the model's own, for states no run
reaches (log entry 10; 20_memory R51 says that there is no out-of-range access, 41_index_generator R133 that there is no
division by zero). The only stop is the refusal of a host that breaks its duty, which is the model's choice (log entry 8). -/
def Obligations.InvariantStatesDoNotFault : Prop :=
  ∀ s : State, Inv s → (∃ t, step s = .next t) ∨ (hostBreach s (nextEdge s) = true ∧ step s = .refused .hostWordChanged)

/-! ### Sizing and the host's procedures -/

/-- 40_sizing_and_construction R104: sizing fails with `SZ_E_RATE` for a rate that is not in (0, 1) or no real number, whatever the
item count, and otherwise with `SZ_E_ITEMS` for no items; `WITH_RATE` then issues no command. -/
def Obligations.SizingFails : Prop :=
  (∀ (rate : Option ℝ) (n : ℕ), (∀ p, rate = some p → p ≤ 0 ∨ 1 ≤ p) → sizing rate n = .error .rate ∧
    ∀ u x y, withRate u rate n x y = .error .rate) ∧
  ∀ p : ℝ, 0 < p → p < 1 → sizing (some p) 0 = .error .items ∧ ∀ u x y, withRate u (some p) 0 x y = .error .items

/-- 40_sizing_and_construction R100, R101, R102, R105: in its domain sizing returns the two formulas' values, `num_bits` at least 1 and the
least integer not below the formula, `num_hashes` at least 1. -/
def Obligations.SizingReturnsTheFormulas : Prop :=
  ∀ (p : ℝ) (n : ℕ), 0 < p → p < 1 → 1 ≤ n → ∃ bits hashes : ℕ, sizing (some p) n = .ok (bits, hashes) ∧
    1 ≤ bits ∧ 1 ≤ hashes ∧
    (bits : ℝ) - 1 < -(n * Real.log p) / Real.log 2 ^ 2 ∧ -(n * Real.log p) / Real.log 2 ^ 2 ≤ bits ∧
    (hashes : ℤ) = max 1 (round ((bits : ℝ) / n * Real.log 2))

/-- 40_sizing_and_construction R108: a smaller rate, the item count fixed, yields `num_bits` that is not smaller. -/
def Obligations.SizingIsMonotone : Prop :=
  ∀ (p q : ℝ) (n : ℕ), 0 < p → p ≤ q → q < 1 → 1 ≤ n → numBits q n ≤ numBits p n

/-- 40_sizing_and_construction R109: `with_rate(0.01, 1000)` gives 9586 bits and 7 hashes, and so issues `CONS.u 9586, 7`. -/
def Obligations.SizingWorkedExample : Prop :=
  sizing (some (1 / 100)) 1000 = .ok (9586, 7) ∧
  ∀ x y, withRate .B (some (1 / 100)) 1000 x y = .ok (.consB 7 9586 x y)

/-- 30_encoding R85, 60_exceptions R211: `WITH_SIZE` fails with `SZ_E_RANGE` exactly where the header's fields cannot hold the numbers, and
else issues the `CONS.u` that carries them; a command of it decodes to those numbers. -/
def Obligations.WithSizeIssuesTheCommand : Prop :=
  ∀ (u : UnitId) (bits hashes : ℕ) (x y : Word),
    ((4294967295 < bits ∨ 255 < hashes) → withSize u bits hashes x y = .error .range) ∧
    (bits ≤ 4294967295 → hashes ≤ 255 → ∃ h, (∃ i, withSize u bits hashes x y = .ok i ∧ encode i = [h, x, y]) ∧
      opOf h = 1 ∧ unitOf h = u ∧ (mOf h).toNat = bits ∧ (kOf h).toNat = hashes ∧ lenOf h = 0 ∧ rsvOf h = 0)

/-! ### The indexer's internal interface -/

/-- 41_index_generator R139, R134: a query that asks the indexer for one index after the other, and aborts at the first slot that
fails its test, gives the answer and the count of reads of the scan over the formula's indices, and leaves the indexer
with nothing of the sequence (R135). `start` begins a sequence whatever was shown before, `abort` ends one, and with no
request the indexer shows the same index. That `start` shows index number 0, what the idle indexer carries, that a query
whose every slot passes gives `next` at its last index and the sequence is over then, that `abort` leaves the indexer idle,
and the order of requests made at once are the model's choice (log entry 17). -/
def Obligations.IndexerServesTheScan : Prop :=
  (∀ (test : Nat → Bool) (h1 h2 : Word) (m : BitVec 32) (k : BitVec 8), 1 ≤ m.toNat → 1 ≤ k.toNat →
    indexerScan test k.toNat (indexerStart h1 h2 m k) =
      (scan test ((List.range k.toNat).map (indexFormula h1 h2 m.toNat)), indexerIdle) ∧
    indexerNext^[k.toNat] (indexerStart h1 h2 m k) = indexerIdle) ∧
  ∀ (x : IndexerState) (i : IndexerIn),
    (i.start = true → indexerEdge x i = indexerStart i.h1 i.h2 i.m i.k) ∧
    (i.start = false → i.abort = true → (indexerOut (indexerEdge x i)).idxValid = false) ∧
    (i.start = false → i.abort = false → i.next = true → indexerEdge x i = indexerNext x) ∧
    (i.start = false → i.abort = false → i.next = false → indexerEdge x i = x)
end

