-- ==== Sys2Proof/Laws/Indexer.lean ====
section
/-! SUPPORT. The hardware form of the indexer (spec/41_index_generator.md R138, R139): the state in which it shows index
number `i` of a sequence, and what each operation makes of it. -/

namespace Sys2Proof.Machine

/-- One step of the hardware form takes the formula from `i` to `i + 1`. -/
theorem indexStep_indexFormula (h1 h2 : Word) {m : Nat} (i : Nat) (hm : 1 ≤ m) :
    indexStep m (h2.toNat % m) (indexFormula h1 h2 m i) = indexFormula h1 h2 m (i + 1) := by
  unfold indexFormula indexStep
  have e : h1.toNat + (i + 1) * h2.toNat = (h1.toNat + i * h2.toNat) + h2.toNat := by ring
  rw [e, Nat.add_mod (h1.toNat + i * h2.toNat) h2.toNat m]
  have ha := Nat.mod_lt (h1.toNat + i * h2.toNat) hm
  have hb := Nat.mod_lt h2.toNat hm
  generalize (h1.toNat + i * h2.toNat) % m = a at *
  generalize h2.toNat % m = b at *
  split
  · next h => rw [Nat.mod_eq_of_lt h]
  · next h => rw [Nat.mod_eq_sub_mod (by omega), Nat.mod_eq_of_lt (by omega)]

/-- The indexer that shows index number `i` of the sequence of `h1`, `h2`, `m`, `k`. -/
def indexerAt (h1 h2 : Word) (m : BitVec 32) (k : BitVec 8) (i : Nat) : IndexerState where
  valid := true
  idx := BitVec.ofNat 32 (indexFormula h1 h2 m.toNat i)
  stride := BitVec.ofNat 32 (h2.toNat % m.toNat)
  m := m
  left := BitVec.ofNat 8 (k.toNat - 1 - i)

@[simp] theorem indexerAt_valid (h1 h2 : Word) (m : BitVec 32) (k : BitVec 8) (i : Nat) :
    (indexerAt h1 h2 m k i).valid = true := rfl

section
variable {h1 h2 : Word} {m : BitVec 32} {k : BitVec 8}

/-- The index shown is the formula's. -/
theorem indexerAt_idx (hm : 1 ≤ m.toNat) (i : Nat) :
    (indexerAt h1 h2 m k i).idx.toNat = indexFormula h1 h2 m.toNat i := by
  have hlt := m.isLt
  have hb : indexFormula h1 h2 m.toNat i < m.toNat := Nat.mod_lt _ hm
  simp only [indexerAt, BitVec.toNat_ofNat]
  exact Nat.mod_eq_of_lt (by omega)

/-- `start` shows index number 0. -/
theorem indexerStart_eq (hk : 1 ≤ k.toNat) : indexerStart h1 h2 m k = indexerAt h1 h2 m k 0 := by
  have hk0 : k ≠ 0 := by rintro rfl; simp at hk
  have hlt := k.isLt
  unfold indexerStart indexerAt
  simp only [indexFormula, Nat.zero_mul, Nat.add_zero, Nat.sub_zero, IndexerState.mk.injEq, true_and]
  refine ⟨by simpa using hk0, BitVec.eq_of_toNat_eq ?_⟩
  rw [BitVec.toNat_sub]
  simp
  omega

/-- `last` at number `k - 1`. -/
theorem indexerAt_last (i : Nat) : indexerLast (indexerAt h1 h2 m k i) = true ↔ k.toNat - 1 ≤ i := by
  have hlt := k.isLt
  simp only [indexerLast, indexerAt, Bool.true_and, beq_iff_eq]
  constructor
  · intro h
    have := congrArg BitVec.toNat h
    simp at this
    omega
  · intro h
    rw [show k.toNat - 1 - i = 0 by omega]
    rfl

/-- `next` shows the index after, or ends the sequence after the last one. -/
theorem indexerNext_at (hm : 1 ≤ m.toNat) (hk : 1 ≤ k.toNat) (i : Nat) :
    indexerNext (indexerAt h1 h2 m k i) = if i + 1 < k.toNat then indexerAt h1 h2 m k (i + 1) else indexerIdle := by
  have hl := indexerAt_last (h1 := h1) (h2 := h2) (m := m) (k := k) i
  have hlt := k.isLt
  unfold indexerNext
  split
  · next h =>
    have : indexerLast (indexerAt h1 h2 m k i) = true := by simpa using h
    rw [hl] at this
    rw [if_neg (by omega)]
  · next h =>
    have : ¬ indexerLast (indexerAt h1 h2 m k i) = true := by simpa using h
    rw [hl] at this
    rw [if_pos (by omega)]
    have e := indexerAt_idx (h1 := h1) (h2 := h2) (k := k) hm i
    have hb := Nat.mod_lt h2.toNat hm
    have hm' := m.isLt
    simp only [indexerAt] at e ⊢
    simp only [IndexerState.mk.injEq, true_and]
    constructor
    · rw [e, BitVec.toNat_ofNat, Nat.mod_eq_of_lt (a := h2.toNat % m.toNat) (by omega), indexStep_indexFormula _ _ _ hm]
    · apply BitVec.eq_of_toNat_eq
      rw [BitVec.toNat_sub]
      simp
      omega

end

end Sys2Proof.Machine
end

