-- ==== Sys2Proof/Laws/State.lean ====
section
/-! SUPPORT. The named updates of State, field by field. -/

namespace Sys2Proof.Machine

/-! ### constructB -/

@[simp] theorem constructB_b (k : BitVec 8) (m : BitVec 32) (x y : Word) (s : State) :
    (constructB k m x y s).b = { constr := true, m := m, k := k, seedA := x, seedB := y } := rfl
@[simp] theorem constructB_c (k : BitVec 8) (m : BitVec 32) (x y : Word) (s : State) :
    (constructB k m x y s).c = s.c := rfl
@[simp] theorem constructB_ssat (k : BitVec 8) (m : BitVec 32) (x y : Word) (s : State) :
    (constructB k m x y s).ssat = s.ssat := rfl
@[simp] theorem constructB_sunf (k : BitVec 8) (m : BitVec 32) (x y : Word) (s : State) :
    (constructB k m x y s).sunf = s.sunf := rfl
@[simp] theorem constructB_arr (k : BitVec 8) (m : BitVec 32) (x y : Word) (s : State) :
    (constructB k m x y s).arr = Memory.clear m.toNat s.arr := rfl
@[simp] theorem constructB_cnt (k : BitVec 8) (m : BitVec 32) (x y : Word) (s : State) :
    (constructB k m x y s).cnt = s.cnt := rfl
@[simp] theorem constructB_front (k : BitVec 8) (m : BitVec 32) (x y : Word) (s : State) :
    (constructB k m x y s).front = s.front := rfl
@[simp] theorem constructB_rsp (k : BitVec 8) (m : BitVec 32) (x y : Word) (s : State) :
    (constructB k m x y s).rsp = s.rsp := rfl
@[simp] theorem constructB_stall (k : BitVec 8) (m : BitVec 32) (x y : Word) (s : State) :
    (constructB k m x y s).stall = s.stall := rfl
@[simp] theorem constructB_held (k : BitVec 8) (m : BitVec 32) (x y : Word) (s : State) :
    (constructB k m x y s).held = s.held := rfl
@[simp] theorem constructB_edges (k : BitVec 8) (m : BitVec 32) (x y : Word) (s : State) :
    (constructB k m x y s).edges = s.edges := rfl
@[simp] theorem constructB_taken (k : BitVec 8) (m : BitVec 32) (x y : Word) (s : State) :
    (constructB k m x y s).taken = s.taken := rfl
@[simp] theorem constructB_tick (k : BitVec 8) (m : BitVec 32) (x y : Word) (s : State) :
    (constructB k m x y s).tick = s.tick := rfl

/-! ### constructC -/

@[simp] theorem constructC_b (k : BitVec 8) (m : BitVec 32) (x y : Word) (s : State) :
    (constructC k m x y s).b = s.b := rfl
@[simp] theorem constructC_c (k : BitVec 8) (m : BitVec 32) (x y : Word) (s : State) :
    (constructC k m x y s).c = { constr := true, m := m, k := k, seedA := x, seedB := y } := rfl
@[simp] theorem constructC_ssat (k : BitVec 8) (m : BitVec 32) (x y : Word) (s : State) :
    (constructC k m x y s).ssat = false := rfl
@[simp] theorem constructC_sunf (k : BitVec 8) (m : BitVec 32) (x y : Word) (s : State) :
    (constructC k m x y s).sunf = false := rfl
@[simp] theorem constructC_arr (k : BitVec 8) (m : BitVec 32) (x y : Word) (s : State) :
    (constructC k m x y s).arr = s.arr := rfl
@[simp] theorem constructC_cnt (k : BitVec 8) (m : BitVec 32) (x y : Word) (s : State) :
    (constructC k m x y s).cnt = Memory.clear m.toNat s.cnt := rfl
@[simp] theorem constructC_front (k : BitVec 8) (m : BitVec 32) (x y : Word) (s : State) :
    (constructC k m x y s).front = s.front := rfl
@[simp] theorem constructC_rsp (k : BitVec 8) (m : BitVec 32) (x y : Word) (s : State) :
    (constructC k m x y s).rsp = s.rsp := rfl
@[simp] theorem constructC_stall (k : BitVec 8) (m : BitVec 32) (x y : Word) (s : State) :
    (constructC k m x y s).stall = s.stall := rfl
@[simp] theorem constructC_held (k : BitVec 8) (m : BitVec 32) (x y : Word) (s : State) :
    (constructC k m x y s).held = s.held := rfl
@[simp] theorem constructC_edges (k : BitVec 8) (m : BitVec 32) (x y : Word) (s : State) :
    (constructC k m x y s).edges = s.edges := rfl
@[simp] theorem constructC_taken (k : BitVec 8) (m : BitVec 32) (x y : Word) (s : State) :
    (constructC k m x y s).taken = s.taken := rfl
@[simp] theorem constructC_tick (k : BitVec 8) (m : BitVec 32) (x y : Word) (s : State) :
    (constructC k m x y s).tick = s.tick := rfl

/-! ### stickySat -/

@[simp] theorem stickySat_b (f : Bool) (s : State) :
    (stickySat f s).b = s.b := rfl
@[simp] theorem stickySat_c (f : Bool) (s : State) :
    (stickySat f s).c = s.c := rfl
@[simp] theorem stickySat_ssat (f : Bool) (s : State) :
    (stickySat f s).ssat = (s.ssat || f) := rfl
@[simp] theorem stickySat_sunf (f : Bool) (s : State) :
    (stickySat f s).sunf = s.sunf := rfl
@[simp] theorem stickySat_arr (f : Bool) (s : State) :
    (stickySat f s).arr = s.arr := rfl
@[simp] theorem stickySat_cnt (f : Bool) (s : State) :
    (stickySat f s).cnt = s.cnt := rfl
@[simp] theorem stickySat_front (f : Bool) (s : State) :
    (stickySat f s).front = s.front := rfl
@[simp] theorem stickySat_rsp (f : Bool) (s : State) :
    (stickySat f s).rsp = s.rsp := rfl
@[simp] theorem stickySat_stall (f : Bool) (s : State) :
    (stickySat f s).stall = s.stall := rfl
@[simp] theorem stickySat_held (f : Bool) (s : State) :
    (stickySat f s).held = s.held := rfl
@[simp] theorem stickySat_edges (f : Bool) (s : State) :
    (stickySat f s).edges = s.edges := rfl
@[simp] theorem stickySat_taken (f : Bool) (s : State) :
    (stickySat f s).taken = s.taken := rfl
@[simp] theorem stickySat_tick (f : Bool) (s : State) :
    (stickySat f s).tick = s.tick := rfl

/-! ### stickyUnf -/

@[simp] theorem stickyUnf_b (f : Bool) (s : State) :
    (stickyUnf f s).b = s.b := rfl
@[simp] theorem stickyUnf_c (f : Bool) (s : State) :
    (stickyUnf f s).c = s.c := rfl
@[simp] theorem stickyUnf_ssat (f : Bool) (s : State) :
    (stickyUnf f s).ssat = s.ssat := rfl
@[simp] theorem stickyUnf_sunf (f : Bool) (s : State) :
    (stickyUnf f s).sunf = (s.sunf || f) := rfl
@[simp] theorem stickyUnf_arr (f : Bool) (s : State) :
    (stickyUnf f s).arr = s.arr := rfl
@[simp] theorem stickyUnf_cnt (f : Bool) (s : State) :
    (stickyUnf f s).cnt = s.cnt := rfl
@[simp] theorem stickyUnf_front (f : Bool) (s : State) :
    (stickyUnf f s).front = s.front := rfl
@[simp] theorem stickyUnf_rsp (f : Bool) (s : State) :
    (stickyUnf f s).rsp = s.rsp := rfl
@[simp] theorem stickyUnf_stall (f : Bool) (s : State) :
    (stickyUnf f s).stall = s.stall := rfl
@[simp] theorem stickyUnf_held (f : Bool) (s : State) :
    (stickyUnf f s).held = s.held := rfl
@[simp] theorem stickyUnf_edges (f : Bool) (s : State) :
    (stickyUnf f s).edges = s.edges := rfl
@[simp] theorem stickyUnf_taken (f : Bool) (s : State) :
    (stickyUnf f s).taken = s.taken := rfl
@[simp] theorem stickyUnf_tick (f : Bool) (s : State) :
    (stickyUnf f s).tick = s.tick := rfl

/-! ### resetEdge -/

@[simp] theorem resetEdge_b (s : State) :
    (resetEdge s).b = { s.b with constr := false } := rfl
@[simp] theorem resetEdge_c (s : State) :
    (resetEdge s).c = { s.c with constr := false } := rfl
@[simp] theorem resetEdge_ssat (s : State) :
    (resetEdge s).ssat = false := rfl
@[simp] theorem resetEdge_sunf (s : State) :
    (resetEdge s).sunf = false := rfl
@[simp] theorem resetEdge_arr (s : State) :
    (resetEdge s).arr = s.arr := rfl
@[simp] theorem resetEdge_cnt (s : State) :
    (resetEdge s).cnt = s.cnt := rfl
@[simp] theorem resetEdge_front (s : State) :
    (resetEdge s).front = none := rfl
@[simp] theorem resetEdge_rsp (s : State) :
    (resetEdge s).rsp = none := rfl
@[simp] theorem resetEdge_stall (s : State) :
    (resetEdge s).stall = 0 := rfl
@[simp] theorem resetEdge_held (s : State) :
    (resetEdge s).held = none := rfl
@[simp] theorem resetEdge_edges (s : State) :
    (resetEdge s).edges = s.edges.tail := rfl
@[simp] theorem resetEdge_taken (s : State) :
    (resetEdge s).taken = s.taken := rfl
@[simp] theorem resetEdge_tick (s : State) :
    (resetEdge s).tick = s.tick + 1 := rfl

/-! ### retire -/

@[simp] theorem retire_b (s : State) (e : Edge) :
    (retire s e).b = s.b := rfl
@[simp] theorem retire_c (s : State) (e : Edge) :
    (retire s e).c = s.c := rfl
@[simp] theorem retire_ssat (s : State) (e : Edge) :
    (retire s e).ssat = s.ssat := rfl
@[simp] theorem retire_sunf (s : State) (e : Edge) :
    (retire s e).sunf = s.sunf := rfl
@[simp] theorem retire_arr (s : State) (e : Edge) :
    (retire s e).arr = s.arr := rfl
@[simp] theorem retire_cnt (s : State) (e : Edge) :
    (retire s e).cnt = s.cnt := rfl
@[simp] theorem retire_front (s : State) (e : Edge) :
    (retire s e).front = none := rfl
@[simp] theorem retire_rsp (s : State) (e : Edge) :
    (retire s e).rsp = s.rsp := rfl
@[simp] theorem retire_stall (s : State) (e : Edge) :
    (retire s e).stall = s.stall := rfl
@[simp] theorem retire_held (s : State) (e : Edge) :
    (retire s e).held = stillHeld s e := rfl
@[simp] theorem retire_edges (s : State) (e : Edge) :
    (retire s e).edges = s.edges.tail := rfl
@[simp] theorem retire_taken (s : State) (e : Edge) :
    (retire s e).taken = s.taken := rfl
@[simp] theorem retire_tick (s : State) (e : Edge) :
    (retire s e).tick = s.tick + 1 := rfl

/-! ### transfer -/

@[simp] theorem transfer_b (cfg : Config) (s : State) (e : Edge) :
    (transfer cfg s e).b = s.b := rfl
@[simp] theorem transfer_c (cfg : Config) (s : State) (e : Edge) :
    (transfer cfg s e).c = s.c := rfl
@[simp] theorem transfer_ssat (cfg : Config) (s : State) (e : Edge) :
    (transfer cfg s e).ssat = s.ssat := rfl
@[simp] theorem transfer_sunf (cfg : Config) (s : State) (e : Edge) :
    (transfer cfg s e).sunf = s.sunf := rfl
@[simp] theorem transfer_arr (cfg : Config) (s : State) (e : Edge) :
    (transfer cfg s e).arr = s.arr := rfl
@[simp] theorem transfer_cnt (cfg : Config) (s : State) (e : Edge) :
    (transfer cfg s e).cnt = s.cnt := rfl
@[simp] theorem transfer_front (cfg : Config) (s : State) (e : Edge) :
    (transfer cfg s e).front = if wordTransfers s e then some (acceptWord cfg e.cmdData s.front) else s.front := rfl
@[simp] theorem transfer_rsp (cfg : Config) (s : State) (e : Edge) :
    (transfer cfg s e).rsp = if responseTransfers s e then none else s.rsp := rfl
@[simp] theorem transfer_stall (cfg : Config) (s : State) (e : Edge) :
    (transfer cfg s e).stall = if wordTransfers s e then Config.busyEdges s.tick else s.stall - 1 := rfl
@[simp] theorem transfer_held (cfg : Config) (s : State) (e : Edge) :
    (transfer cfg s e).held = stillHeld s e := rfl
@[simp] theorem transfer_edges (cfg : Config) (s : State) (e : Edge) :
    (transfer cfg s e).edges = s.edges.tail := rfl
@[simp] theorem transfer_taken (cfg : Config) (s : State) (e : Edge) :
    (transfer cfg s e).taken = if responseTransfers s e then s.taken ++ s.rsp.toList else s.taken := rfl
@[simp] theorem transfer_tick (cfg : Config) (s : State) (e : Edge) :
    (transfer cfg s e).tick = s.tick + 1 := rfl

/-! ### withCommand -/

@[simp] theorem withCommand_b (s : State) (h : Word) (p : List Word) :
    (withCommand s h p).b = s.b := rfl
@[simp] theorem withCommand_c (s : State) (h : Word) (p : List Word) :
    (withCommand s h p).c = s.c := rfl
@[simp] theorem withCommand_ssat (s : State) (h : Word) (p : List Word) :
    (withCommand s h p).ssat = s.ssat := rfl
@[simp] theorem withCommand_sunf (s : State) (h : Word) (p : List Word) :
    (withCommand s h p).sunf = s.sunf := rfl
@[simp] theorem withCommand_arr (s : State) (h : Word) (p : List Word) :
    (withCommand s h p).arr = s.arr := rfl
@[simp] theorem withCommand_cnt (s : State) (h : Word) (p : List Word) :
    (withCommand s h p).cnt = s.cnt := rfl
@[simp] theorem withCommand_front (s : State) (h : Word) (p : List Word) :
    (withCommand s h p).front = some { header := h, payload := p, owed := 0 } := rfl
@[simp] theorem withCommand_rsp (s : State) (h : Word) (p : List Word) :
    (withCommand s h p).rsp = none := rfl
@[simp] theorem withCommand_stall (s : State) (h : Word) (p : List Word) :
    (withCommand s h p).stall = 0 := rfl
@[simp] theorem withCommand_held (s : State) (h : Word) (p : List Word) :
    (withCommand s h p).held = none := rfl
@[simp] theorem withCommand_edges (s : State) (h : Word) (p : List Word) :
    (withCommand s h p).edges = idleEdge :: s.edges := rfl
@[simp] theorem withCommand_taken (s : State) (h : Word) (p : List Word) :
    (withCommand s h p).taken = s.taken ++ s.rsp.toList := rfl
@[simp] theorem withCommand_tick (s : State) (h : Word) (p : List Word) :
    (withCommand s h p).tick = s.tick := rfl

/-! ### The registers of a unit -/

@[simp] theorem State.regs_B (s : State) : s.regs .B = s.b := rfl
@[simp] theorem State.regs_C (s : State) : s.regs .C = s.c := rfl

end Sys2Proof.Machine
end

