-- ==== Sys2Proof/Laws/Memory.lean ====
section
/-! SUPPORT. The slot arrays: what a read gives after a write or the clearing sweep (spec/20_memory.md R53, R54), and that
every operation keeps the canonical form. -/

namespace Sys2Proof.Machine

variable {w : Nat}

/-! ### Reads -/

@[simp] theorem Memory.read_nil (j : Nat) : Memory.read ([] : Memory w) j = 0 := rfl

theorem Memory.read_cons (i j : Nat) (x : BitVec w) (rest : Memory w) :
    Memory.read ((i, x) :: rest) j = if i = j then x else Memory.read rest j := rfl

theorem Memory.wfAbove_mono {lo hi : Nat} (h : lo ≤ hi) : ∀ {a : Memory w}, Memory.wfAbove hi a = true →
    Memory.wfAbove lo a = true
  | [], _ => rfl
  | (i, x) :: rest, ha => by
    simp only [Memory.wfAbove, Bool.and_eq_true, decide_eq_true_eq] at ha ⊢
    exact ⟨⟨by omega, ha.1.2⟩, ha.2⟩

/-- A slot below all listed ones reads 0. -/
theorem Memory.read_below {j : Nat} : ∀ {lo : Nat} {a : Memory w}, Memory.wfAbove lo a = true → j < lo →
    Memory.read a j = 0
  | _, [], _, _ => rfl
  | lo, (i, x) :: rest, ha, hj => by
    simp only [Memory.wfAbove, Bool.and_eq_true, decide_eq_true_eq] at ha
    rw [Memory.read_cons, if_neg (by omega)]
    exact Memory.read_below ha.2 (by omega)

theorem Memory.read_put_self (j : Nat) (v : BitVec w) (rest : Memory w) (h : v = 0 → Memory.read rest j = 0) :
    Memory.read (Memory.put j v rest) j = v := by
  unfold Memory.put
  split
  · next hv => rw [h hv, hv]
  · simp [Memory.read_cons]

theorem Memory.read_put_other {i j : Nat} (hij : i ≠ j) (v : BitVec w) (rest : Memory w) :
    Memory.read (Memory.put j v rest) i = Memory.read rest i := by
  unfold Memory.put
  split
  · rfl
  · rw [Memory.read_cons, if_neg (Ne.symm hij)]

/-- Every other slot keeps its value (R54). -/
theorem Memory.read_write_other {i j : Nat} (hij : i ≠ j) (v : BitVec w) : ∀ a : Memory w,
    Memory.read (Memory.write a j v) i = Memory.read a i
  | [] => by simp [Memory.write, Memory.read_put_other hij]
  | (i', x) :: rest => by
    unfold Memory.write
    split
    · exact Memory.read_put_other hij v _
    · split
      · next h => rw [Memory.read_put_other hij, Memory.read_cons, if_neg (by omega)]
      · simp only [Memory.read_cons, Memory.read_write_other hij v rest]

theorem Memory.read_write_self_above (j : Nat) (v : BitVec w) : ∀ {lo : Nat} {a : Memory w},
    Memory.wfAbove lo a = true → Memory.read (Memory.write a j v) j = v
  | _, [], _ => Memory.read_put_self j v [] fun _ => rfl
  | lo, (i, x) :: rest, ha => by
    have hr := ha
    simp only [Memory.wfAbove, Bool.and_eq_true, decide_eq_true_eq] at ha
    unfold Memory.write
    split
    · next h =>
      refine Memory.read_put_self _ _ _ fun _ => ?_
      rw [Memory.read_cons, if_neg (by omega)]
      exact Memory.read_below ha.2 (by omega)
    · split
      · next h => exact Memory.read_put_self _ _ _ fun _ => Memory.read_below ha.2 (by omega)
      · next h1 h2 =>
        rw [Memory.read_cons, if_neg (Ne.symm h2)]
        exact Memory.read_write_self_above j v ha.2

/-- The next `ArrRead(u, j)` returns `v` (R54). -/
theorem Memory.read_write_self {a : Memory w} (ha : Memory.wf a = true) (j : Nat) (v : BitVec w) :
    Memory.read (Memory.write a j v) j = v :=
  Memory.read_write_self_above j v ha

/-- The same in any array, for a value that is not 0. -/
theorem Memory.read_write_self_of_ne_zero {v : BitVec w} (hv : v ≠ 0) (j : Nat) : ∀ a : Memory w,
    Memory.read (Memory.write a j v) j = v
  | [] => Memory.read_put_self j v [] fun _ => rfl
  | (i, x) :: rest => by
    unfold Memory.write
    split
    · exact Memory.read_put_self _ _ _ fun h => absurd h hv
    · split
      · exact Memory.read_put_self _ _ _ fun h => absurd h hv
      · next h1 h2 =>
        rw [Memory.read_cons, if_neg (Ne.symm h2)]
        exact Memory.read_write_self_of_ne_zero hv j rest

/-- The clearing sweep: slots below `m` read 0, the others keep their value. -/
theorem Memory.read_clear (m j : Nat) : ∀ a : Memory w,
    Memory.read (Memory.clear m a) j = if j < m then 0 else Memory.read a j
  | [] => by simp [Memory.clear]
  | (i, x) :: rest => by
    have ih := Memory.read_clear m j rest
    unfold Memory.clear at ih ⊢
    rw [List.filter_cons]
    split
    · next h =>
      have hm : m ≤ i := by simpa using h
      rw [Memory.read_cons, Memory.read_cons, ih]
      split <;> split <;> first | rfl | omega
    · next h =>
      have hm : ¬ m ≤ i := by simpa using h
      rw [ih, Memory.read_cons]
      split
      · rfl
      · rw [if_neg (by omega)]

/-- An array of given contents reads as given, and as 0 outside its slots. -/
theorem Memory.read_ofSlots (n : Nat) (f : Nat → BitVec w) (j : Nat) :
    Memory.read (Memory.ofSlots n f) j = if j < n then f j else 0 := by
  have key : ∀ l : List Nat,
      Memory.read (l.filterMap fun i => if f i = 0 then none else some (i, f i)) j = if j ∈ l then f j else 0 := by
    intro l
    induction l with
    | nil => simp
    | cons i l ih =>
      by_cases hf : f i = 0
      · rw [List.filterMap_cons_none (by exact if_pos hf), ih]
        by_cases hj : j = i <;> simp [hj, hf]
      · rw [List.filterMap_cons_some (b := (i, f i)) (by exact if_neg hf), Memory.read_cons, ih]
        by_cases hj : i = j
        · simp [hj]
        · simp [hj, Ne.symm hj]
  rw [Memory.ofSlots, key]
  simp

/-- It lists none but its slots. -/
theorem Memory.mem_ofSlots {n : Nat} {f : Nat → BitVec w} {e : Nat × BitVec w} (h : e ∈ Memory.ofSlots n f) : e.1 < n := by
  obtain ⟨j, hj, he⟩ := List.mem_filterMap.1 h
  split at he
  · cases he
  · cases he
    exact List.mem_range.1 hj

/-! ### The canonical form -/

/-- An array of given contents is in canonical form. -/
theorem Memory.ofSlots_wf (n : Nat) (f : Nat → BitVec w) : Memory.wf (Memory.ofSlots n f) = true := by
  have key : ∀ len lo : Nat,
      Memory.wfAbove lo ((List.range' lo len).filterMap fun j => if f j = 0 then none else some (j, f j)) = true := by
    intro len
    induction len with
    | zero => intro lo; rfl
    | succ len ih =>
      intro lo
      rw [List.range'_succ]
      by_cases hf : f lo = 0
      · rw [List.filterMap_cons_none (by exact if_pos hf)]
        exact Memory.wfAbove_mono (Nat.le_succ lo) (ih (lo + 1))
      · rw [List.filterMap_cons_some (b := (lo, f lo)) (by exact if_neg hf)]
        simp only [Memory.wfAbove, Bool.and_eq_true, decide_eq_true_eq, bne_iff_ne]
        exact ⟨⟨Nat.le_refl lo, hf⟩, ih (lo + 1)⟩
  rw [Memory.ofSlots, List.range_eq_range']
  exact key n 0

theorem Memory.put_wfAbove {lo j : Nat} (hj : lo ≤ j) (v : BitVec w) {rest : Memory w}
    (h : Memory.wfAbove (j + 1) rest = true) : Memory.wfAbove lo (Memory.put j v rest) = true := by
  unfold Memory.put
  split
  · exact Memory.wfAbove_mono (by omega) h
  · next hv =>
    simp only [Memory.wfAbove, Bool.and_eq_true, decide_eq_true_eq, bne_iff_ne]
    exact ⟨⟨hj, hv⟩, h⟩

theorem Memory.write_wfAbove (j : Nat) (v : BitVec w) : ∀ {lo : Nat} {a : Memory w}, lo ≤ j →
    Memory.wfAbove lo a = true → Memory.wfAbove lo (Memory.write a j v) = true
  | lo, [], hj, _ => Memory.put_wfAbove hj v rfl
  | lo, (i, x) :: rest, hj, ha => by
    have hr := ha
    simp only [Memory.wfAbove, Bool.and_eq_true, decide_eq_true_eq] at ha
    unfold Memory.write
    split
    · next h =>
      refine Memory.put_wfAbove hj v ?_
      simp only [Memory.wfAbove, Bool.and_eq_true, decide_eq_true_eq]
      exact ⟨⟨by omega, ha.1.2⟩, ha.2⟩
    · split
      · next h => exact Memory.put_wfAbove hj v (h ▸ ha.2)
      · next h1 h2 =>
        simp only [Memory.wfAbove, Bool.and_eq_true, decide_eq_true_eq]
        exact ⟨ha.1, Memory.write_wfAbove j v (by omega) ha.2⟩

/-- A write keeps the canonical form. -/
theorem Memory.write_wf {a : Memory w} (ha : Memory.wf a = true) (j : Nat) (v : BitVec w) :
    Memory.wf (Memory.write a j v) = true :=
  Memory.write_wfAbove j v (Nat.zero_le j) ha

theorem Memory.clear_wfAbove (m : Nat) : ∀ {lo : Nat} {a : Memory w}, Memory.wfAbove lo a = true →
    Memory.wfAbove lo (Memory.clear m a) = true
  | _, [], _ => rfl
  | lo, (i, x) :: rest, ha => by
    simp only [Memory.wfAbove, Bool.and_eq_true, decide_eq_true_eq] at ha
    have ih := Memory.clear_wfAbove m ha.2
    unfold Memory.clear at ih ⊢
    rw [List.filter_cons]
    split
    · simp only [Memory.wfAbove, Bool.and_eq_true, decide_eq_true_eq]
      exact ⟨ha.1, ih⟩
    · exact Memory.wfAbove_mono (by omega) ih

/-- The clearing sweep keeps the canonical form. -/
theorem Memory.clear_wf {a : Memory w} (ha : Memory.wf a = true) (m : Nat) : Memory.wf (Memory.clear m a) = true :=
  Memory.clear_wfAbove m ha

/-- What a write lists was listed before, or is the slot written. -/
theorem Memory.mem_write {e : Nat × BitVec w} {j : Nat} {v : BitVec w} : ∀ {a : Memory w},
    e ∈ Memory.write a j v → e ∈ a ∨ e.1 = j
  | [], h => by
    unfold Memory.write Memory.put at h
    split at h <;> simp_all
  | (i, x) :: rest, h => by
    unfold Memory.write Memory.put at h
    split at h
    · split at h
      · exact .inl h
      · rcases List.mem_cons.1 h with h | h
        · exact .inr (by rw [h])
        · exact .inl h
    · split at h
      · split at h
        · exact .inl (List.mem_cons_of_mem _ h)
        · rcases List.mem_cons.1 h with h | h
          · exact .inr (by rw [h])
          · exact .inl (List.mem_cons_of_mem _ h)
      · rcases List.mem_cons.1 h with h | h
        · exact .inl (by rw [h]; exact List.mem_cons_self)
        · exact (Memory.mem_write h).imp_left (List.mem_cons_of_mem _)

/-- Two arrays in canonical form that read alike are the same list. -/
theorem Memory.ext_of_wfAbove : ∀ {lo : Nat} {a b : Memory w}, Memory.wfAbove lo a = true →
    Memory.wfAbove lo b = true → (∀ j, Memory.read a j = Memory.read b j) → a = b
  | _, [], [], _, _, _ => rfl
  | _, [], (i, x) :: rest, _, hb, h => by
    simp only [Memory.wfAbove, Bool.and_eq_true, bne_iff_ne] at hb
    exact absurd (by simpa [Memory.read_cons] using (h i).symm) hb.1.2
  | _, (i, x) :: rest, [], ha, _, h => by
    simp only [Memory.wfAbove, Bool.and_eq_true, bne_iff_ne] at ha
    exact absurd (by simpa [Memory.read_cons] using h i) ha.1.2
  | lo, (i, x) :: ra, (k, y) :: rb, ha, hb, h => by
    simp only [Memory.wfAbove, Bool.and_eq_true, bne_iff_ne, decide_eq_true_eq] at ha hb
    have hik : i = k := by
      rcases Nat.lt_trichotomy i k with hlt | heq | hgt
      · have := h i
        rw [Memory.read_cons, if_pos rfl, Memory.read_cons, if_neg (by omega),
          Memory.read_below hb.2 (by omega)] at this
        exact absurd this ha.1.2
      · exact heq
      · have := h k
        rw [Memory.read_cons, if_neg (by omega), Memory.read_cons, if_pos rfl,
          Memory.read_below ha.2 (by omega)] at this
        exact absurd this.symm hb.1.2
    subst hik
    have hxy : x = y := by simpa [Memory.read_cons] using h i
    subst hxy
    have hr : ra = rb := by
      refine Memory.ext_of_wfAbove ha.2 hb.2 fun j => ?_
      by_cases hj : i = j
      · subst hj
        rw [Memory.read_below ha.2 (by omega), Memory.read_below hb.2 (by omega)]
      · simpa [Memory.read_cons, hj] using h j
    rw [hr]

theorem Memory.ext {a b : Memory w} (ha : Memory.wf a = true) (hb : Memory.wf b = true)
    (h : ∀ j, Memory.read a j = Memory.read b j) : a = b :=
  Memory.ext_of_wfAbove ha hb h

/-- The sweep `for j in 0 .. m-1: ArrWrite(u, j, 0)` of `CONS.u` (40_sizing_and_construction R110, R111) is
`Memory.clear`. -/
theorem Memory.clear_eq_sweep {a : Memory w} (ha : Memory.wf a = true) (m : Nat) :
    Memory.clear m a = (List.range m).foldl (fun a j => Memory.write a j 0) a := by
  have key : ∀ m : Nat, Memory.wf ((List.range m).foldl (fun a j => Memory.write a j 0) a) = true ∧
      ∀ j, Memory.read ((List.range m).foldl (fun a j => Memory.write a j 0) a) j
        = if j < m then 0 else Memory.read a j := by
    intro m
    induction m with
    | zero => exact ⟨ha, fun j => by simp⟩
    | succ m ih =>
      simp only [List.range_succ, List.foldl_append, List.foldl_cons, List.foldl_nil]
      refine ⟨Memory.write_wf ih.1 m 0, fun j => ?_⟩
      by_cases hj : j = m
      · subst hj
        rw [Memory.read_write_self ih.1, if_pos (Nat.lt_succ_self _)]
      · rw [Memory.read_write_other hj, ih.2 j]
        split <;> split <;> first | rfl | omega
  exact Memory.ext (Memory.clear_wf ha m) (key m).1 fun j => by rw [Memory.read_clear, (key m).2 j]

end Sys2Proof.Machine
end

