-- ==== Sys2Proof/Laws/Loops.lean ====
section
/-! SUPPORT. What the sequencer's loops do: the loops of INS.B, INS.C and REM.C (spec/42_bitset_filter.md R151,
spec/43_counting_filter.md R171, R173) and the scan of QRY (R152, R172). -/

namespace Sys2Proof.Machine

/-! ### The counter arithmetic (spec/00_scope.md R14) -/

theorem satInc_toNat (c : BitVec 4) : (satInc c).toNat = min 15 (c.toNat + 1) := by
  revert c; decide

theorem floorDec_toNat (c : BitVec 4) : (floorDec c).toNat = c.toNat - 1 := by
  revert c; decide

theorem satInc_ne_zero (c : BitVec 4) : satInc c ≠ 0 := by
  revert c; decide

theorem satMark_iff (c : BitVec 4) : satMark c = true ↔ c.toNat = 15 := by
  revert c; decide

theorem unfMark_iff (c : BitVec 4) : unfMark c = true ↔ c.toNat = 0 := by
  revert c; decide

/-! ### One slot -/

theorem read_bitSet (a : Memory 1) (i j : Nat) :
    Memory.read (bitSet a j) i = if i = j then 1 else Memory.read a i := by
  by_cases h : i = j
  · subst h; rw [if_pos rfl]; exact Memory.read_write_self_of_ne_zero (by decide) i a
  · rw [if_neg h]; exact Memory.read_write_other h 1 a

theorem read_cntInc (a : Memory 4) (i j : Nat) :
    (Memory.read (cntInc a j) i).toNat
      = if i = j then min 15 ((Memory.read a i).toNat + 1) else (Memory.read a i).toNat := by
  by_cases h : i = j
  · subst h
    rw [if_pos rfl, ← satInc_toNat]
    exact congrArg BitVec.toNat (Memory.read_write_self_of_ne_zero (satInc_ne_zero _) i a)
  · rw [if_neg h]; exact congrArg BitVec.toNat (Memory.read_write_other h _ a)

theorem read_cntDec {a : Memory 4} (ha : Memory.wf a = true) (i j : Nat) :
    (Memory.read (cntDec a j) i).toNat
      = if i = j then (Memory.read a i).toNat - 1 else (Memory.read a i).toNat := by
  by_cases h : i = j
  · subst h
    rw [if_pos rfl, ← floorDec_toNat]
    exact congrArg BitVec.toNat (Memory.read_write_self ha i _)
  · rw [if_neg h]; exact congrArg BitVec.toNat (Memory.read_write_other h _ a)

/-! ### The loops -/

/-- `setBits` keeps every property of an array that a write of a visited slot keeps. -/
theorem setBits_induct {P : Memory 1 → Prop} {js : List Nat}
    (hw : ∀ j ∈ js, ∀ a, P a → P (Memory.write a j 1)) : ∀ {a}, P a → P (setBits js a) := by
  induction js with
  | nil => exact fun h => h
  | cons j js ih =>
    exact fun h => ih (fun i hi => hw i (List.mem_cons_of_mem _ hi)) (hw j List.mem_cons_self _ h)

theorem incAll_induct {P : Memory 4 → Prop} : ∀ {js : List Nat},
    (∀ j ∈ js, ∀ a v, P a → P (Memory.write a j v)) → ∀ {a}, P a → P (incAll js a).1
  | [], _, _, h => h
  | j :: _, hw, _, h =>
    incAll_induct (fun i hi => hw i (List.mem_cons_of_mem _ hi)) (hw j List.mem_cons_self _ _ h)

theorem decAll_induct {P : Memory 4 → Prop} : ∀ {js : List Nat},
    (∀ j ∈ js, ∀ a v, P a → P (Memory.write a j v)) → ∀ {a}, P a → P (decAll js a).1
  | [], _, _, h => h
  | j :: _, hw, _, h =>
    decAll_induct (fun i hi => hw i (List.mem_cons_of_mem _ hi)) (hw j List.mem_cons_self _ _ h)

theorem read_setBits (i : Nat) : ∀ (js : List Nat) (a : Memory 1),
    Memory.read (setBits js a) i = if i ∈ js then 1 else Memory.read a i
  | [], a => by simp [setBits]
  | j :: js, a => by
    have ih := read_setBits i js (bitSet a j)
    have hs : setBits (j :: js) a = setBits js (bitSet a j) := rfl
    rw [hs, ih, read_bitSet]
    by_cases h1 : i ∈ js <;> by_cases h2 : i = j <;> simp [h1, h2]

/-- Each counter goes up by as often as its number is visited, not past 15. -/
theorem read_incAll (i : Nat) : ∀ (js : List Nat) (a : Memory 4),
    (Memory.read (incAll js a).1 i).toNat = min 15 ((Memory.read a i).toNat + js.count i)
  | [], a => by have := (Memory.read a i).isLt; simp [incAll]; omega
  | j :: js, a => by
    have ih := read_incAll i js (cntInc a j)
    have hs : (incAll (j :: js) a).1 = (incAll js (cntInc a j)).1 := rfl
    rw [hs, ih, read_cntInc, List.count_cons]
    by_cases h : i = j
    · subst h; simp; omega
    · have : (j == i) = false := by simpa using Ne.symm h
      simp [h, this]

/-- The flag is up exactly when some counter would have gone past 15. -/
theorem incAll_flag : ∀ (js : List Nat) (a : Memory 4),
    (incAll js a).2 = true ↔ ∃ i ∈ js, 15 < (Memory.read a i).toNat + js.count i
  | [], a => by simp [incAll]
  | j :: js, a => by
    have ih := incAll_flag js (cntInc a j)
    have hs : (incAll (j :: js) a).2 = (satMark (Memory.read a j) || (incAll js (cntInc a j)).2) := rfl
    rw [hs, Bool.or_eq_true, ih, satMark_iff]
    have hlt := fun i => (Memory.read a i).isLt
    constructor
    · rintro (h | ⟨i, hi, h⟩)
      · exact ⟨j, List.mem_cons_self, by rw [List.count_cons_self]; omega⟩
      · refine ⟨i, List.mem_cons_of_mem _ hi, ?_⟩
        rw [read_cntInc] at h
        by_cases hij : i = j
        · subst hij; rw [List.count_cons_self]; simp at h; omega
        · rw [List.count_cons_of_ne (Ne.symm hij)]; simpa [hij] using h
    · rintro ⟨i, hi, h⟩
      by_cases hfull : (Memory.read a j).toNat = 15
      · exact .inl hfull
      · refine .inr ?_
        by_cases hij : i = j
        · subst hij
          rw [List.count_cons_self] at h
          have := hlt i
          refine ⟨i, List.count_pos_iff.1 (by omega), ?_⟩
          rw [read_cntInc, if_pos rfl]; omega
        · rw [List.count_cons_of_ne (Ne.symm hij)] at h
          refine ⟨i, (List.mem_cons.1 hi).resolve_left hij, ?_⟩
          rw [read_cntInc, if_neg hij]; exact h

theorem decAll_wf {js : List Nat} {a : Memory 4} (ha : Memory.wf a = true) : Memory.wf (decAll js a).1 = true :=
  decAll_induct (P := fun a => Memory.wf a = true) (fun j _ _ v h => Memory.write_wf h j v) ha

/-- Each counter goes down by as often as its number is visited, not below 0. -/
theorem read_decAll (i : Nat) : ∀ (js : List Nat) {a : Memory 4}, Memory.wf a = true →
    (Memory.read (decAll js a).1 i).toNat = (Memory.read a i).toNat - js.count i
  | [], a, _ => by simp [decAll]
  | j :: js, a, ha => by
    have ih := read_decAll i js (a := cntDec a j) (Memory.write_wf ha _ _)
    have hs : (decAll (j :: js) a).1 = (decAll js (cntDec a j)).1 := rfl
    rw [hs, ih, read_cntDec ha, List.count_cons]
    by_cases h : i = j
    · subst h; simp; omega
    · have : (j == i) = false := by simpa using Ne.symm h
      simp [h, this]

/-- The flag is up exactly when some counter would have gone below 0. -/
theorem decAll_flag : ∀ (js : List Nat) {a : Memory 4}, Memory.wf a = true →
    ((decAll js a).2 = true ↔ ∃ i ∈ js, (Memory.read a i).toNat < js.count i)
  | [], a, _ => by simp [decAll]
  | j :: js, a, ha => by
    have ih := decAll_flag js (a := cntDec a j) (Memory.write_wf ha _ _)
    have hs : (decAll (j :: js) a).2 = (unfMark (Memory.read a j) || (decAll js (cntDec a j)).2) := rfl
    rw [hs, Bool.or_eq_true, ih, unfMark_iff]
    constructor
    · rintro (h | ⟨i, hi, h⟩)
      · exact ⟨j, List.mem_cons_self, by rw [List.count_cons_self]; omega⟩
      · refine ⟨i, List.mem_cons_of_mem _ hi, ?_⟩
        rw [read_cntDec ha] at h
        by_cases hij : i = j
        · subst hij; rw [List.count_cons_self]; simp at h; omega
        · rw [List.count_cons_of_ne (Ne.symm hij)]; simpa [hij] using h
    · rintro ⟨i, hi, h⟩
      by_cases hzero : (Memory.read a j).toNat = 0
      · exact .inl hzero
      · refine .inr ?_
        by_cases hij : i = j
        · subst hij
          rw [List.count_cons_self] at h
          refine ⟨i, List.count_pos_iff.1 (by omega), ?_⟩
          rw [read_cntDec ha, if_pos rfl]; omega
        · rw [List.count_cons_of_ne (Ne.symm hij)] at h
          refine ⟨i, (List.mem_cons.1 hi).resolve_left hij, ?_⟩
          rw [read_cntDec ha, if_neg hij]; exact h

/-! ### The scan -/

/-- No slot fails the test: the answer is true and every slot was read. -/
theorem scan_all {test : Nat → Bool} : ∀ {js : List Nat}, (∀ j ∈ js, test j = true) → scan test js = (true, js.length)
  | [], _ => rfl
  | j :: js, h => by
    have ih := scan_all (js := js) fun i hi => h i (List.mem_cons_of_mem _ hi)
    simp [scan, h j List.mem_cons_self, ih]

/-- The first slot that fails the test is number `n`: the answer is false and `n + 1` slots were read. -/
theorem scan_first {test : Nat → Bool} : ∀ {pre : List Nat} {j : Nat} {post : List Nat},
    (∀ i ∈ pre, test i = true) → test j = false → scan test (pre ++ j :: post) = (false, pre.length + 1)
  | [], j, post, _, hj => by simp [scan, hj]
  | i :: pre, j, post, h, hj => by
    have ih := scan_first (pre := pre) (j := j) (post := post) (fun x hx => h x (List.mem_cons_of_mem _ hx)) hj
    simp [scan, h i List.mem_cons_self, ih]

/-- Two tests that agree on the slots give one scan. -/
theorem scan_congr {f g : Nat → Bool} : ∀ {js : List Nat}, (∀ j ∈ js, f j = g j) → scan f js = scan g js
  | [], _ => rfl
  | j :: js, h => by
    have ih := scan_congr (js := js) fun i hi => h i (List.mem_cons_of_mem _ hi)
    simp [scan, h j List.mem_cons_self, ih]

end Sys2Proof.Machine
end

