-- ==== Sys2Proof/Laws/Words.lean ====
section
/-! SUPPORT. The fields of a header the encoder builds (spec/30_encoding.md R71) and of a response word (R80). -/

namespace Sys2Proof

/-! ### Fields of a concatenation -/

/-- A field above the low part is a field of the high part. -/
theorem field_high {a b : Nat} (x : BitVec a) (y : BitVec b) (start len : Nat) :
    (x ++ y).extractLsb' (b + start) len = x.extractLsb' start len := by
  ext i hi
  simp only [BitVec.getElem_extractLsb', BitVec.getLsbD_append]
  rw [if_neg (by omega)]
  congr 1; omega

/-- The low part. -/
theorem field_low {a b : Nat} (x : BitVec a) (y : BitVec b) : (x ++ y).extractLsb' 0 b = y := by
  ext i hi
  simp only [BitVec.getElem_extractLsb', BitVec.getLsbD_append, Nat.zero_add]
  rw [if_pos hi, BitVec.getLsbD_eq_getElem hi]

theorem field_all {a : Nat} (x : BitVec a) : x.extractLsb' 0 a = x := by simp

/-- Two neighbouring fields of a word. -/
theorem field_join {n : Nat} (x : BitVec n) (start a b : Nat) :
    x.extractLsb' (start + b) a ++ x.extractLsb' start b = x.extractLsb' start (a + b) := by
  ext i hi
  simp only [BitVec.getElem_extractLsb', BitVec.getElem_append]
  split
  · rfl
  · congr 1; omega

/-! ### The header (R71) -/

section
variable (op : BitVec 4) (u : UnitId) (k : BitVec 8) (len : BitVec 16) (m : BitVec 32)

@[simp] theorem mOf_header : mOf (header op u k len m) = m := field_low _ m

@[simp] theorem lenOf_header : lenOf (header op u k len m) = len :=
  (field_high _ m 0 16).trans (field_low _ len)

@[simp] theorem kOf_header : kOf (header op u k len m) = k :=
  (field_high _ m 16 8).trans <|
    (field_high _ _ 0 8).trans (field_low _ k)

@[simp] theorem rsvOf_header : rsvOf (header op u k len m) = 0 :=
  (field_high _ m 24 3).trans <|
    (field_high _ _ 8 3).trans <|
      (field_high _ _ 0 3).trans (field_low _ _)

theorem unitBit_header : (header op u k len m).extractLsb' 59 1 = u.bit :=
  (field_high _ m 27 1).trans <|
    (field_high _ _ 11 1).trans <|
      (field_high _ _ 3 1).trans <|
        (field_high _ _ 0 1).trans (field_low _ _)

@[simp] theorem unitOf_header : unitOf (header op u k len m) = u := by
  unfold unitOf
  rw [unitBit_header]
  cases u <;> rfl

@[simp] theorem opOf_header : opOf (header op u k len m) = op :=
  (field_high _ m 28 4).trans <|
    (field_high _ _ 12 4).trans <|
      (field_high _ _ 4 4).trans <|
        (field_high _ _ 1 4).trans <|
          (field_high _ _ 0 4).trans (field_all op)
end

/-- A header is its fields. -/
theorem header_fields (h : Word) (hr : rsvOf h = 0) : header (opOf h) (unitOf h) (kOf h) (lenOf h) (mOf h) = h := by
  have hu : (unitOf h).bit = h.extractLsb' 59 1 := by
    unfold unitOf
    split
    · next he => exact he.symm
    · next he =>
      have : ∀ b : BitVec 1, b ≠ 0#1 → UnitId.bit .C = b := by decide
      exact this _ he
  have hz : (0#3 : BitVec 3) = h.extractLsb' 56 3 := hr.symm
  unfold header
  rw [hu, hz]
  have e1 := field_join h 59 4 1
  have e2 := field_join h 56 5 3
  have e3 := field_join h 48 8 8
  have e4 := field_join h 32 16 16
  have e5 := field_join h 0 32 32
  exact (congrArg (fun x : BitVec 32 => x ++ mOf h) ((congrArg (fun x : BitVec 16 => x ++ lenOf h)
    ((congrArg (fun x : BitVec 8 => x ++ kOf h) ((congrArg (fun x : BitVec 5 => x ++ h.extractLsb' 56 3) e1).trans
      e2)).trans e3)).trans e4)).trans (e5.trans (field_all h))

end Sys2Proof

namespace Sys2Proof.Machine

/-! ### The response (R80) -/

section
variable (r : Response)

theorem Response.m_word : r.word.extractLsb' 0 32 = r.m :=
  field_low _ _

theorem Response.res_word : r.word.extractLsb' 32 1 = BitVec.ofBool r.res :=
  (field_high _ r.m 0 1).trans <| field_low _ _

theorem Response.sat_word : r.word.extractLsb' 33 1 = BitVec.ofBool r.sat :=
  (field_high _ r.m 1 1).trans <| (field_high _ _ 0 1).trans <| field_low _ _

theorem Response.unf_word : r.word.extractLsb' 34 1 = BitVec.ofBool r.unf :=
  (field_high _ r.m 2 1).trans <| (field_high _ _ 1 1).trans <| (field_high _ _ 0 1).trans <| field_low _ _

theorem Response.con_word : r.word.extractLsb' 35 1 = BitVec.ofBool r.con :=
  (field_high _ r.m 3 1).trans <| (field_high _ _ 2 1).trans <| (field_high _ _ 1 1).trans <|
    (field_high _ _ 0 1).trans <| field_low _ _

theorem Response.zero4_word : r.word.extractLsb' 36 4 = 0#4 :=
  (field_high _ r.m 4 4).trans <| (field_high _ _ 3 4).trans <| (field_high _ _ 2 4).trans <|
    (field_high _ _ 1 4).trans <| (field_high _ _ 0 4).trans <| field_low _ _

theorem Response.pk_word : r.word.extractLsb' 40 8 = r.pk :=
  (field_high _ r.m 8 8).trans <| (field_high _ _ 7 8).trans <| (field_high _ _ 6 8).trans <|
    (field_high _ _ 5 8).trans <| (field_high _ _ 4 8).trans <| (field_high _ _ 0 8).trans <| field_low _ _

theorem Response.code_word : r.word.extractLsb' 48 8 = r.code :=
  (field_high _ r.m 16 8).trans <| (field_high _ _ 15 8).trans <| (field_high _ _ 14 8).trans <|
    (field_high _ _ 13 8).trans <| (field_high _ _ 12 8).trans <| (field_high _ _ 8 8).trans <|
    (field_high _ _ 0 8).trans <| field_low _ _

theorem Response.zero3_word : r.word.extractLsb' 56 3 = 0#3 :=
  (field_high _ r.m 24 3).trans <| (field_high _ _ 23 3).trans <| (field_high _ _ 22 3).trans <|
    (field_high _ _ 21 3).trans <| (field_high _ _ 20 3).trans <| (field_high _ _ 16 3).trans <|
    (field_high _ _ 8 3).trans <| (field_high _ _ 0 3).trans <| field_low _ _

theorem Response.unit_word : r.word.extractLsb' 59 1 = r.u.bit :=
  (field_high _ r.m 27 1).trans <| (field_high _ _ 26 1).trans <| (field_high _ _ 25 1).trans <|
    (field_high _ _ 24 1).trans <| (field_high _ _ 23 1).trans <| (field_high _ _ 19 1).trans <|
    (field_high _ _ 11 1).trans <| (field_high _ _ 3 1).trans <| (field_high _ _ 0 1).trans <| field_low _ _

theorem Response.op_word : r.word.extractLsb' 60 4 = r.op :=
  (field_high _ r.m 28 4).trans <| (field_high _ _ 27 4).trans <| (field_high _ _ 26 4).trans <|
    (field_high _ _ 25 4).trans <| (field_high _ _ 24 4).trans <| (field_high _ _ 20 4).trans <|
    (field_high _ _ 12 4).trans <| (field_high _ _ 4 4).trans <| (field_high _ _ 1 4).trans <|
    (field_high _ _ 0 4).trans <| field_all r.op
end

end Sys2Proof.Machine
end

