-- ==== Sys2Proof/Laws/Meanings.lean ====
section
/-! SUPPORT. What the shared operations of the meanings answer, said once each: the configuration's ranges, the response,
the checks of CONS and of the commands on an item, the indexer; and, for each command on an item, the two cases of its
next state. -/

namespace Sys2Proof

/-- Every implementation is in the ranges of 00_scope R9. -/
theorem Config.hw_legal : Config.hw.Legal :=
  ⟨⟨Nat.succ_le_succ (Nat.zero_le _), Config.slotsBelowB.isLt⟩,
    ⟨Nat.succ_le_succ (Nat.zero_le _), Config.slotsBelowC.isLt⟩, Nat.le_of_lt_succ Config.itemLimit.isLt⟩

@[simp] theorem Config.mMax_B (cfg : Config) : cfg.mMax .B = cfg.mMaxB := rfl
@[simp] theorem Config.mMax_C (cfg : Config) : cfg.mMax .C = cfg.mMaxC := rfl

namespace Machine

/-! ### Outcomes -/

theorem respond_eq (r : Response) (s : State) : respond r s = .next { s with rsp := some r.word } := rfl

theorem raise_eq (op : BitVec 4) (u : UnitId) (e : ErrorCode) (s : State) :
    raise op u e s =
      .next { s with rsp := some (Response.word { op := op, u := u, code := errorNumber e }) } := rfl

/-! ### Response words -/

theorem codeOf_word (r : Response) : codeOf r.word = r.code := r.code_word

/-- A response with no error, or an error alone, is one the core may emit. -/
theorem responseOk_word {r : Response} (h : r.code.toNat ≤ 9)
    (he : r.code ≠ 0 → r.word.extractLsb' 0 48 = 0) : ResponseOk r.word := by
  refine ⟨r.zero3_word, r.zero4_word, ?_, ?_⟩
  · rw [codeOf_word]; exact h
  · rw [codeOf_word]; exact he

theorem responseOk_success {r : Response} (h : r.code = 0) : ResponseOk r.word :=
  responseOk_word (by simp [h]) fun hc => absurd h hc

/-- An error response is 0 below its code (30_encoding R80). -/
theorem error_word_low (op : BitVec 4) (u : UnitId) (code : BitVec 8) :
    (Response.word { op := op, u := u, code := code }).extractLsb' 0 48 = 0 := by
  generalize hr : ({ op := op, u := u, code := code } : Response) = r
  have e : r.word.extractLsb' 0 48 = r.word.extractLsb' 40 8 ++ r.word.extractLsb' 36 4 ++ r.word.extractLsb' 35 1 ++
      r.word.extractLsb' 34 1 ++ r.word.extractLsb' 33 1 ++ r.word.extractLsb' 32 1 ++ r.word.extractLsb' 0 32 := by
    rw [field_join r.word 36 8 4, field_join r.word 35 (8 + 4) 1, field_join r.word 34 (8 + 4 + 1) 1,
      field_join r.word 33 (8 + 4 + 1 + 1) 1, field_join r.word 32 (8 + 4 + 1 + 1 + 1) 1]
    exact (field_join r.word 0 16 32).symm
  rw [e, r.pk_word, r.zero4_word, r.con_word, r.unf_word, r.sat_word, r.res_word, r.m_word, ← hr]
  show (0 : BitVec 8) ++ 0#4 ++ BitVec.ofBool false ++ BitVec.ofBool false ++ BitVec.ofBool false ++
    BitVec.ofBool false ++ (0 : BitVec 32) = 0
  decide

theorem errorNumber_le (e : ErrorCode) : (errorNumber e).toNat ≤ 9 := by
  cases e <;> decide

theorem errorNumber_ne_zero (e : ErrorCode) : errorNumber e ≠ 0 := by
  cases e <;> decide

theorem responseOk_error (op : BitVec 4) (u : UnitId) (e : ErrorCode) :
    ResponseOk (Response.word { op := op, u := u, code := errorNumber e }) :=
  responseOk_word (errorNumber_le e) fun _ => error_word_low op u _

/-! ### The checks -/

/-- No check of `CONS.u` fails: the unit is unconstructed and the operands are in range (R110, R111). -/
theorem consCheck_eq_none {cfg : Config} {u : UnitId} {k : BitVec 8} {m : BitVec 32} {s : State} :
    consCheck cfg u k m s = none ↔ (s.regs u).constr = false ∧ m ≠ 0 ∧ k ≠ 0 ∧ m.toNat ≤ cfg.mMax u := by
  unfold consCheck
  split
  · simp_all
  · split
    · simp_all
    · split
      · simp_all
      · split <;> simp_all

/-- A command on an item has its normal effect (60_exceptions R214). -/
theorem itemCommand_of_accepts {op : BitVec 4} {u : UnitId} {len : BitVec 16} {payload : List Word} {s : State}
    {body : List Nat → Host.Outcome State Fault Refusal} (h : Accepts u len s) :
    itemCommand Config.hw op u len payload s body =
      body (indices Config.hw (s.regs u) (itemBytes len payload)) := by
  obtain ⟨h1, h2, h3⟩ := h
  unfold itemCommand
  rw [if_neg (by omega), if_neg (by simp [h1]), if_neg (by simp [h2])]

/-- All a command on an item can answer: a fault on an impossible size, one of its two errors, or its normal effect. -/
theorem itemCommand_cases {op : BitVec 4} {u : UnitId} {len : BitVec 16} {payload : List Word} {s : State}
    {body : List Nat → Host.Outcome State Fault Refusal} :
    ((s.regs u).constr = true ∧ sizeOk Config.hw u s = false ∧
      itemCommand Config.hw op u len payload s body = .fault (.arraySize u)) ∨
    (∃ e, ((e = .itemLen ∧ Config.hw.itemMax < len.toNat) ∨
        (e = .notConstructed ∧ len.toNat ≤ Config.hw.itemMax ∧ (s.regs u).constr = false)) ∧
      itemCommand Config.hw op u len payload s body =
        .next { s with rsp := some (Response.word { op := op, u := u, code := errorNumber e }) }) ∨
    (Accepts u len s ∧ itemCommand Config.hw op u len payload s body =
      body (indices Config.hw (s.regs u) (itemBytes len payload))) := by
  unfold itemCommand
  split
  · next h => exact .inr (.inl ⟨.itemLen, .inl ⟨rfl, h⟩, rfl⟩)
  · next h =>
    split
    · next hc => exact .inr (.inl ⟨.notConstructed, .inr ⟨rfl, by omega, by simpa using hc⟩, rfl⟩)
    · next hc =>
      have hc' : (s.regs u).constr = true := by simpa using hc
      split
      · next hs => exact .inl ⟨hc', by simpa using hs, rfl⟩
      · next hs => exact .inr (.inr ⟨⟨hc', by simpa using hs, by omega⟩, rfl⟩)

/-! ### The indexer -/

/-- 41_index_generator R133. -/
theorem idx_lt {cfg : Config} {r : UnitRegs} (h : 1 ≤ r.m.toNat) (item : List Byte) (i : Nat) :
    idx cfg r item i < r.m.toNat :=
  Nat.mod_lt _ h

@[simp] theorem length_indices (cfg : Config) (r : UnitRegs) (item : List Byte) :
    (indices cfg r item).length = r.k.toNat := by
  simp [indices]

theorem mem_indices {cfg : Config} {r : UnitRegs} {item : List Byte} {j : Nat} :
    j ∈ indices cfg r item ↔ ∃ i < r.k.toNat, idx cfg r item i = j := by
  simp [indices]

theorem lt_of_mem_indices {cfg : Config} {r : UnitRegs} {item : List Byte} {j : Nat} (h : 1 ≤ r.m.toNat)
    (hj : j ∈ indices cfg r item) : j < r.m.toNat := by
  obtain ⟨i, -, rfl⟩ := mem_indices.1 hj
  exact idx_lt h item i

theorem sizeOk_iff {cfg : Config} {u : UnitId} {s : State} :
    sizeOk cfg u s = true ↔ 1 ≤ (s.regs u).m.toNat ∧ (s.regs u).m.toNat ≤ cfg.mMax u := by
  simp [sizeOk]

/-- An accepted command's indices are slots of the physical array. -/
theorem Accepts.index_lt {u : UnitId} {len : BitVec 16} {s : State} (h : Accepts u len s) {item : List Byte} {j : Nat}
    (hj : j ∈ indices Config.hw (s.regs u) item) : j < (s.regs u).m.toNat ∧ j < Config.hw.mMax u := by
  have hs := sizeOk_iff.1 h.2.1
  have := lt_of_mem_indices hs.1 hj
  exact ⟨this, by omega⟩

/-! ### The scan of a query -/

/-- No slot of the item is 0: the answer is 1, and all `K` slots were read. -/
theorem scan_indices_all {cfg : Config} {r : UnitRegs} {item : List Byte} {test : Nat → Bool}
    (h : ∀ i < r.k.toNat, test (idx cfg r item i) = true) :
    scan test (indices cfg r item) = (true, r.k.toNat) := by
  rw [scan_all, length_indices]
  intro j hj
  obtain ⟨i, hi, rfl⟩ := mem_indices.1 hj
  exact h i hi

/-- Index number `i` is the first whose slot is 0: the answer is 0, and `i + 1` slots were read. -/
theorem scan_indices_first {cfg : Config} {r : UnitRegs} {item : List Byte} {test : Nat → Bool} {i : Nat}
    (hi : i < r.k.toNat) (h : ∀ i' < i, test (idx cfg r item i') = true) (h0 : test (idx cfg r item i) = false) :
    scan test (indices cfg r item) = (false, i + 1) := by
  have hsplit : indices cfg r item = (List.range i).map (idx cfg r item) ++ idx cfg r item i ::
      (List.range (r.k.toNat - i - 1)).map fun n => idx cfg r item (i + 1 + n) := by
    have hk : r.k.toNat = i + (1 + (r.k.toNat - i - 1)) := by omega
    unfold indices
    rw [hk, List.range_add, List.range_add]
    simp [Function.comp_def, Nat.add_assoc]
  rw [hsplit, scan_first]
  · simp
  · intro j hj
    obtain ⟨i', hi', rfl⟩ := List.mem_map.1 hj
    exact h i' (List.mem_range.1 hi')
  · exact h0

end Machine
end Sys2Proof
end

