-- ==== Sys2Proof/Laws/PerInstr.lean ====
section
/-! SUPPORT. Statements made per command. `EncodeLength`: the words of a well-formed command are its header and as many
payload words as that header announces (spec/30_encoding.md R70, R72). -/

namespace Sys2Proof.Laws.EncodeLength

/-- The words of a command are a header and the `PayloadWords(H)` words of it. -/
def Statement (i : Instr) : Prop :=
  i.wf = true → ∃ h payload, encode i = h :: payload ∧ payload.length = payloadWords h

/-- The payload of a command on an item. -/
theorem of_item {op : BitVec 4} (h1 : op ≠ opCons) (h2 : opHasItem op = true) (u : UnitId) {len : BitVec 16}
    {payload : List Word} (hf : payloadFits len payload = true) :
    payload.length = payloadWords (header op u 0 len 0) := by
  simp only [payloadWords, opOf_header, lenOf_header, if_neg h1, if_pos h2]
  simpa [payloadFits] using hf

/-- The payload of a command on the unit, of `CONS` and of the others. -/
theorem of_cons (u : UnitId) (k : BitVec 8) (m : BitVec 32) : payloadWords (header opCons u k 0 m) = 2 := by
  simp [payloadWords]

theorem of_none {op : BitVec 4} (h1 : op ≠ opCons) (h2 : opHasItem op = false) (u : UnitId) :
    payloadWords (header op u 0 0 0) = 0 := by
  simp [payloadWords, h1, h2]

theorem consB (k : BitVec 8) (m : BitVec 32) (seedA seedB : Word) : Statement (.consB k m seedA seedB) :=
  fun _ => ⟨_, _, rfl, (of_cons .B k m).symm⟩

theorem consC (k : BitVec 8) (m : BitVec 32) (seedA seedB : Word) : Statement (.consC k m seedA seedB) :=
  fun _ => ⟨_, _, rfl, (of_cons .C k m).symm⟩

theorem dstrB : Statement .dstrB := fun _ => ⟨_, _, rfl, (of_none (by decide) (by decide) .B).symm⟩

theorem dstrC : Statement .dstrC := fun _ => ⟨_, _, rfl, (of_none (by decide) (by decide) .C).symm⟩

theorem insB (len : BitVec 16) (payload : List Word) : Statement (.insB len payload) :=
  fun h => ⟨_, _, rfl, of_item (by decide) (by decide) .B h⟩

theorem insC (len : BitVec 16) (payload : List Word) : Statement (.insC len payload) :=
  fun h => ⟨_, _, rfl, of_item (by decide) (by decide) .C h⟩

theorem qryB (len : BitVec 16) (payload : List Word) : Statement (.qryB len payload) :=
  fun h => ⟨_, _, rfl, of_item (by decide) (by decide) .B h⟩

theorem qryC (len : BitVec 16) (payload : List Word) : Statement (.qryC len payload) :=
  fun h => ⟨_, _, rfl, of_item (by decide) (by decide) .C h⟩

theorem remB (len : BitVec 16) (payload : List Word) : Statement (.remB len payload) :=
  fun h => ⟨_, _, rfl, of_item (by decide) (by decide) .B h⟩

theorem remC (len : BitVec 16) (payload : List Word) : Statement (.remC len payload) :=
  fun h => ⟨_, _, rfl, of_item (by decide) (by decide) .C h⟩

theorem statB : Statement .statB := fun _ => ⟨_, _, rfl, (of_none (by decide) (by decide) .B).symm⟩

theorem statC : Statement .statC := fun _ => ⟨_, _, rfl, (of_none (by decide) (by decide) .C).symm⟩

end Sys2Proof.Laws.EncodeLength
end

