-- ==== Sys2Proof/Laws/Steps.lean ====
section
/-! SUPPORT. What a command and a step can do, said once: the cases of a next state of `exec` and of `step`. -/

namespace Sys2Proof.Machine

/-! ### A command -/

/-- `OP` and unit of a command (spec/30_encoding.md R75). -/
def opAndUnit : Instr → BitVec 4 × UnitId
  | .consB _ _ _ _ => (opCons, .B)
  | .consC _ _ _ _ => (opCons, .C)
  | .dstrB => (opDstr, .B)
  | .dstrC => (opDstr, .C)
  | .insB _ _ => (opIns, .B)
  | .insC _ _ => (opIns, .C)
  | .qryB _ _ => (opQry, .B)
  | .qryC _ _ => (opQry, .C)
  | .remB _ _ => (opRem, .B)
  | .remC _ _ => (opRem, .C)
  | .statB => (opStat, .B)
  | .statC => (opStat, .C)

/-- The state after a command that raised `e`. -/
def raised (i : Instr) (e : ErrorCode) (s : State) : State :=
  { s with rsp := some (Response.word { op := (opAndUnit i).1, u := (opAndUnit i).2, code := errorNumber e }) }

/-- When a command has its normal effect, and the state after it but for the response. -/
def Effect : Instr → State → State → Prop
  | .consB k m x y, s, t =>
    (s.b.constr = false ∧ m ≠ 0 ∧ k ≠ 0 ∧ m.toNat ≤ Config.hw.mMaxB) ∧ t = constructB k m x y s
  | .consC k m x y, s, t =>
    (s.c.constr = false ∧ m ≠ 0 ∧ k ≠ 0 ∧ m.toNat ≤ Config.hw.mMaxC) ∧ t = constructC k m x y s
  | .dstrB, s, t => s.b.constr = true ∧ t = { s with b := { s.b with constr := false } }
  | .dstrC, s, t => s.c.constr = true ∧ t = { s with c := { s.c with constr := false }, ssat := false, sunf := false }
  | .insB len p, s, t =>
    Accepts .B len s ∧ t = { s with arr := setBits (indices Config.hw s.b (itemBytes len p)) s.arr }
  | .insC len p, s, t =>
    Accepts .C len s ∧ t = { s with cnt := (incAll (indices Config.hw s.c (itemBytes len p)) s.cnt).1
                                    ssat := s.ssat || (incAll (indices Config.hw s.c (itemBytes len p)) s.cnt).2 }
  | .qryB len _, s, t => Accepts .B len s ∧ t = s
  | .qryC len _, s, t => Accepts .C len s ∧ t = s
  | .remB _ _, _, _ => False
  | .remC len p, s, t =>
    Accepts .C len s ∧ t = { s with cnt := (decAll (indices Config.hw s.c (itemBytes len p)) s.cnt).1
                                    sunf := s.sunf || (decAll (indices Config.hw s.c (itemBytes len p)) s.cnt).2 }
  | .statB, s, t => t = s
  | .statC, s, t => t = s

/-- The response of a command that has its normal effect. -/
def successResponse : Instr → State → Response
  | .consB _ _ _ _, _ => { op := opCons, u := .B }
  | .consC _ _ _ _, _ => { op := opCons, u := .C }
  | .dstrB, _ => { op := opDstr, u := .B }
  | .dstrC, _ => { op := opDstr, u := .C }
  | .insB _ _, s => { op := opIns, u := .B, pk := s.b.k }
  | .insC len p, s =>
    { op := opIns, u := .C, sat := (incAll (indices Config.hw s.c (itemBytes len p)) s.cnt).2, pk := s.c.k }
  | .qryB len p, s =>
    { op := opQry, u := .B, res := (scan (bitLookup s.arr) (indices Config.hw s.b (itemBytes len p))).1
      pk := BitVec.ofNat 8 (scan (bitLookup s.arr) (indices Config.hw s.b (itemBytes len p))).2 }
  | .qryC len p, s =>
    { op := opQry, u := .C, res := (scan (cntNonzero s.cnt) (indices Config.hw s.c (itemBytes len p))).1
      pk := BitVec.ofNat 8 (scan (cntNonzero s.cnt) (indices Config.hw s.c (itemBytes len p))).2 }
  | .remB _ _, _ => { op := opRem, u := .B }
  | .remC len p, s =>
    { op := opRem, u := .C, unf := (decAll (indices Config.hw s.c (itemBytes len p)) s.cnt).2, pk := s.c.k }
  | .statB, s => if s.b.constr then { op := opStat, u := .B, con := true, pk := s.b.k, m := s.b.m } else { op := opStat, u := .B }
  | .statC, s =>
    if s.c.constr then { op := opStat, u := .C, con := true, pk := s.c.k, m := s.c.m, sat := s.ssat, unf := s.sunf }
    else { op := opStat, u := .C }

theorem successResponse_fields (i : Instr) (s : State) :
    (successResponse i s).op = (opAndUnit i).1 ∧ (successResponse i s).u = (opAndUnit i).2 ∧
      (successResponse i s).code = 0 := by
  cases i <;> unfold successResponse opAndUnit <;> dsimp only <;> (try split) <;> exact ⟨rfl, rfl, rfl⟩

/-- A command on an item whose errors are the shared ones. -/
theorem itemCommand_next {i : Instr} {len : BitVec 16} {p : List Word} {s t : State} {op : BitVec 4} {u : UnitId}
    {body : List Nat → Host.Outcome State Fault Refusal} (hi : opAndUnit i = (op, u))
    (h : itemCommand Config.hw op u len p s body = .next t) :
    (∃ e, t = raised i e s) ∨
      (Accepts u len s ∧ body (indices Config.hw (s.regs u) (itemBytes len p)) = .next t) := by
  rcases itemCommand_cases (op := op) (u := u) (len := len) (payload := p) (s := s) (body := body) with
    ⟨-, -, hf⟩ | ⟨e, -, he⟩ | ⟨ha, hb⟩
  · rw [hf] at h; cases h
  · rw [he] at h; cases h; exact .inl ⟨e, by rw [raised, hi]⟩
  · rw [hb] at h; exact .inr ⟨ha, h⟩

/-- All a command can do when it answers a next state: raise an error, which changes the response alone, or have its
effect and its response. -/
theorem exec_cases {i : Instr} {s t : State} (h : exec i s = .next t) :
    (∃ e, t = raised i e s) ∨
      ∃ t', Effect i s t' ∧ t = { t' with rsp := some (successResponse i s).word } := by
  cases i with
  | consB k m x y =>
    simp only [exec, execConsB, consB] at h
    split at h
    · next e _ => cases h; exact .inl ⟨e, rfl⟩
    · next hc => cases h; exact .inr ⟨_, ⟨consCheck_eq_none.1 hc, rfl⟩, rfl⟩
  | consC k m x y =>
    simp only [exec, execConsC, consC] at h
    split at h
    · next e _ => cases h; exact .inl ⟨e, rfl⟩
    · next hc => cases h; exact .inr ⟨_, ⟨consCheck_eq_none.1 hc, rfl⟩, rfl⟩
  | dstrB =>
    simp only [exec, execDstrB] at h
    split at h
    · next hc => cases h; exact .inr ⟨_, ⟨hc, rfl⟩, rfl⟩
    · cases h; exact .inl ⟨.notConstructed, rfl⟩
  | dstrC =>
    simp only [exec, execDstrC] at h
    split at h
    · next hc => cases h; exact .inr ⟨_, ⟨hc, rfl⟩, rfl⟩
    · cases h; exact .inl ⟨.notConstructed, rfl⟩
  | insB len p =>
    simp only [exec, execInsB, insB] at h
    refine (itemCommand_next (i := .insB len p) rfl h).imp id fun ⟨ha, hb⟩ => ?_
    cases hb; exact ⟨_, ⟨ha, rfl⟩, rfl⟩
  | insC len p =>
    simp only [exec, execInsC, insC] at h
    refine (itemCommand_next (i := .insC len p) rfl h).imp id fun ⟨ha, hb⟩ => ?_
    cases hb; exact ⟨_, ⟨ha, rfl⟩, rfl⟩
  | qryB len p =>
    simp only [exec, execQryB, qryB] at h
    refine (itemCommand_next (i := .qryB len p) rfl h).imp id fun ⟨ha, hb⟩ => ?_
    cases hb; exact ⟨_, ⟨ha, rfl⟩, rfl⟩
  | qryC len p =>
    simp only [exec, execQryC, qryC] at h
    refine (itemCommand_next (i := .qryC len p) rfl h).imp id fun ⟨ha, hb⟩ => ?_
    cases hb; exact ⟨_, ⟨ha, rfl⟩, rfl⟩
  | remB len p => cases h; exact .inl ⟨.noRemove, rfl⟩
  | remC len p =>
    simp only [exec, execRemC, remC] at h
    refine (itemCommand_next (i := .remC len p) rfl h).imp id fun ⟨ha, hb⟩ => ?_
    cases hb; exact ⟨_, ⟨ha, rfl⟩, rfl⟩
  | statB =>
    simp only [exec, execStatB] at h
    split at h
    · next hc => cases h; exact .inr ⟨s, rfl, by simp [successResponse, hc]⟩
    · next hc => cases h; exact .inr ⟨s, rfl, by simp [successResponse, hc]⟩
  | statC =>
    simp only [exec, execStatC] at h
    split at h
    · next hc => cases h; exact .inr ⟨s, rfl, by simp [successResponse, hc]⟩
    · next hc => cases h; exact .inr ⟨s, rfl, by simp [successResponse, hc]⟩

/-- A command that may have its effect has it. -/
theorem exec_of_effect {i : Instr} {s t : State} (h : Effect i s t) :
    exec i s = .next { t with rsp := some (successResponse i s).word } := by
  cases i with
  | consB k m x y =>
    obtain ⟨hc, rfl⟩ := h
    simp only [exec, execConsB, consB, (consCheck_eq_none (u := .B)).2 hc]; rfl
  | consC k m x y =>
    obtain ⟨hc, rfl⟩ := h
    simp only [exec, execConsC, consC, (consCheck_eq_none (u := .C)).2 hc]; rfl
  | dstrB => obtain ⟨hc, rfl⟩ := h; simp only [exec, execDstrB, hc]; rfl
  | dstrC => obtain ⟨hc, rfl⟩ := h; simp only [exec, execDstrC, hc]; rfl
  | insB len p => obtain ⟨ha, rfl⟩ := h; simp only [exec, execInsB, insB]; rw [itemCommand_of_accepts ha]; rfl
  | insC len p => obtain ⟨ha, rfl⟩ := h; simp only [exec, execInsC, insC]; rw [itemCommand_of_accepts ha]; rfl
  | qryB len p => obtain ⟨ha, rfl⟩ := h; simp only [exec, execQryB, qryB]; rw [itemCommand_of_accepts ha]; rfl
  | qryC len p => obtain ⟨ha, rfl⟩ := h; simp only [exec, execQryC, qryC]; rw [itemCommand_of_accepts ha]; rfl
  | remB len p => exact h.elim
  | remC len p => obtain ⟨ha, rfl⟩ := h; simp only [exec, execRemC, remC]; rw [itemCommand_of_accepts ha]; rfl
  | statB => cases h; simp only [exec, execStatB, successResponse]; split <;> rfl
  | statC => cases h; simp only [exec, execStatC, successResponse]; split <;> rfl

/-- A decoded command has the header's `OP` and unit. -/
theorem decode_opAndUnit {h : Word} {payload : List Word} {i : Instr} (hd : decode h payload = .ok i) :
    opAndUnit i = (opOf h, unitOf h) := by
  have stat : ∀ o : BitVec 4, opReserved o = false → o ≠ opCons → o ≠ opDstr → o ≠ opIns → o ≠ opQry → o ≠ opRem →
      o = opStat := by decide
  have unit : ∀ {o : BitVec 4} {onB onC : Instr}, opOf h = o → opAndUnit onB = (o, .B) → opAndUnit onC = (o, .C) →
      opAndUnit (forUnit h onB onC) = (opOf h, unitOf h) := by
    intro o onB onC ho hB hC
    unfold forUnit
    split <;> next hu => simp [ho, hu, hB, hC]
  unfold decode at hd
  split at hd
  · cases hd
  · next hres =>
    split at hd
    · cases hd
    · split at hd
      · cases hd
      · split at hd
        · next ho =>
          unfold decodeCons at hd
          split at hd
          · split at hd <;> cases hd <;> next hu => simp [opAndUnit, ho, hu]
          · cases hd
        · next h1 =>
          split at hd
          · next ho => cases hd; exact unit ho rfl rfl
          · next h2 =>
            split at hd
            · next ho => cases hd; exact unit ho rfl rfl
            · next h3 =>
              split at hd
              · next ho => cases hd; exact unit ho rfl rfl
              · next h4 =>
                split at hd
                · next ho => cases hd; exact unit ho rfl rfl
                · next h5 => cases hd; exact unit (stat _ (by simpa using hres) h1 h2 h3 h4 h5) rfl rfl

/-- What the decoder says of a header whose payload the front end holds: it sorts it (R79), and never faults. -/
theorem decode_cases {h : Word} {p : List Word} (hp : p.length = min (payloadRoom Config.hw) (payloadWords h)) :
    (opReserved (opOf h) = true ∧ decode h p = .error .illegalOpcode) ∨
    (opReserved (opOf h) = false ∧ fieldsOk h = false ∧ decode h p = .error .reservedField) ∨
    (opReserved (opOf h) = false ∧ fieldsOk h = true ∧ ∃ i, decode h p = .ok i) := by
  cases h1 : opReserved (opOf h) with
  | true => exact .inl ⟨rfl, by simp [decode, h1]⟩
  | false =>
    cases h2 : fieldsOk h with
    | false => exact .inr (.inl ⟨rfl, rfl, by simp [decode, h1, h2]⟩)
    | true =>
      refine .inr (.inr ⟨rfl, rfl, ?_⟩)
      have hroom : 2 ≤ payloadRoom Config.hw := by unfold payloadRoom; omega
      have hheld : payloadHeld h p = true := by
        unfold payloadHeld
        split
        · simp [hp]
        · next hn =>
          have : payloadWords h ≤ 2 := by
            unfold payloadWords
            split
            · exact Nat.le_refl 2
            · simp
          simp only [beq_iff_eq]; omega
      unfold decode
      simp only [h1, h2, hheld, Bool.false_eq_true, ↓reduceIte, Bool.not_true]
      split
      · next hc =>
        have : payloadWords h = 2 := by unfold payloadWords; rw [if_pos hc]
        have hl : p.length = 2 := by omega
        match p, hl with
        | [a, b], _ => simp only [decodeCons]; cases unitOf h <;> exact ⟨_, rfl⟩
      · split; · exact ⟨_, rfl⟩
        split; · exact ⟨_, rfl⟩
        split; · exact ⟨_, rfl⟩
        split <;> exact ⟨_, rfl⟩

/-- What a header that decodes to a command says: its checks hold, and the command carries its fields. -/
theorem decode_fields {h : Word} {payload : List Word} {i : Instr} (hd : decode h payload = .ok i) :
    opReserved (opOf h) = false ∧ fieldsOk h = true ∧
      match i with
      | .consB k m _ _ | .consC k m _ _ => k = kOf h ∧ m = mOf h
      | .insB len q | .insC len q | .qryB len q | .qryC len q | .remB len q | .remC len q => len = lenOf h ∧ q = payload
      | .dstrB | .dstrC | .statB | .statC => True := by
  unfold decode at hd
  split at hd; · cases hd
  next h1 =>
  split at hd; · cases hd
  next h2 =>
  split at hd; · cases hd
  refine ⟨by simpa using h1, by simpa using h2, ?_⟩
  split at hd
  · unfold decodeCons at hd
    split at hd
    · split at hd <;> cases hd <;> exact ⟨rfl, rfl⟩
    · cases hd
  unfold forUnit at hd
  split at hd
  · split at hd <;> cases hd <;> trivial
  split at hd
  · split at hd <;> cases hd <;> exact ⟨rfl, rfl⟩
  split at hd
  · split at hd <;> cases hd <;> exact ⟨rfl, rfl⟩
  split at hd
  · split at hd <;> cases hd <;> exact ⟨rfl, rfl⟩
  · split at hd <;> cases hd <;> trivial

/-! ### A step -/

/-- The core executes a command only with no response waiting, no work left and its front end full. -/
theorem readyCommand_eq_some {s : State} {h : Word} {payload : List Word} :
    readyCommand s = some (h, payload) ↔
      s.front = some { header := h, payload := payload, owed := 0 } ∧ s.stall = 0 ∧ s.rsp = none := by
  unfold readyCommand
  cases hf : s.front with
  | none => simp
  | some p =>
    obtain ⟨ph, pp, po⟩ := p
    simp only [Option.some.injEq, PartialCommand.mk.injEq]
    constructor
    · intro he
      split at he
      · next hc => simp only [Option.some.injEq, Prod.mk.injEq] at he; exact ⟨⟨he.1, he.2, hc.1⟩, hc.2⟩
      · cases he
    · rintro ⟨⟨rfl, rfl, rfl⟩, h2, h3⟩
      rw [if_pos ⟨rfl, h2, h3⟩]

/-- A step at an edge at which a command runs. -/
theorem step_of_runs {s : State} {h : Word} {payload : List Word} (hr : Runs s h payload) :
    step s = match decode h payload with
      | .ok i => exec i (onEdge s)
      | .error d => answerUndecoded h d (onEdge s) := by
  obtain ⟨h1, h2, h3⟩ := hr
  unfold step
  rw [if_neg (by simp [h1]), if_neg (by simp [h2]), h3]
  rfl

/-- A step at an edge at which nothing runs. -/
theorem step_of_quiet {s : State} (h1 : (nextEdge s).rst = false) (h2 : hostBreach s (nextEdge s) = false)
    (h3 : readyCommand s = none) : step s = .next (transfer Config.hw s (nextEdge s)) := by
  unfold step
  rw [if_neg (by simp [h1]), if_neg (by simp [h2]), h3]

/-- All a step can do when it answers a next state: a reset; the transfers of a quiet edge; a command; the answer to a
header that is none. -/
theorem step_cases {s t : State} (h : step s = .next t) :
    ((nextEdge s).rst = true ∧ t = resetEdge s) ∨
    ((nextEdge s).rst = false ∧ hostBreach s (nextEdge s) = false ∧ readyCommand s = none ∧
      t = transfer Config.hw s (nextEdge s)) ∨
    ∃ hd payload, Runs s hd payload ∧
      ((∃ i, decode hd payload = .ok i ∧ exec i (onEdge s) = .next t) ∨
        ∃ d e, decode hd payload = .error d ∧ ((d = .illegalOpcode ∧ e = .illegalOpcode) ∨
            (d = .reservedField ∧ e = .reservedField)) ∧
          t = { onEdge s with
                  rsp := some (Response.word { op := opOf hd, u := unitOf hd, code := errorNumber e }) }) := by
  by_cases h1 : (nextEdge s).rst = true
  · unfold step at h; rw [if_pos h1] at h; cases h; exact .inl ⟨h1, rfl⟩
  · have h1' : (nextEdge s).rst = false := by simpa using h1
    by_cases h2 : hostBreach s (nextEdge s) = true
    · unfold step at h; rw [if_neg h1, if_pos h2] at h; cases h
    · have h2' : hostBreach s (nextEdge s) = false := by simpa using h2
      cases h3 : readyCommand s with
      | none => rw [step_of_quiet h1' h2' h3] at h; cases h; exact .inr (.inl ⟨h1', h2', rfl, rfl⟩)
      | some c =>
        obtain ⟨hd, payload⟩ := c
        have hr : Runs s hd payload := ⟨h1', h2', h3⟩
        rw [step_of_runs hr] at h
        refine .inr (.inr ⟨hd, payload, hr, ?_⟩)
        cases hd' : decode hd payload with
        | ok i => rw [hd'] at h; exact .inl ⟨i, rfl, h⟩
        | error d =>
          rw [hd'] at h
          cases d with
          | illegalOpcode => cases h; exact .inr ⟨_, .illegalOpcode, rfl, .inl ⟨rfl, rfl⟩, rfl⟩
          | reservedField => cases h; exact .inr ⟨_, .reservedField, rfl, .inr ⟨rfl, rfl⟩, rfl⟩
          | payloadCount => cases h

end Sys2Proof.Machine
end

