-- ==== Sys2Proof/Tests/Slice0.lean ====
section
/-! SUPPORT. Tests against the words and vectors of the spec (30_encoding R87; 95_test_vectors V2 to V8, P2, P3, P5), under
`CFG_T` where a value depends on the configuration; and, for every obligation that has hypotheses, a witness of them. -/

namespace Sys2Proof.Tests

open Sys2Proof.Machine

/-! ### Small states -/

/-- A unit that holds no filter. -/
def noUnit : UnitRegs := { constr := false, m := 0, k := 0, seedA := 0, seedB := 0 }

/-- A unit that holds a filter of `m` slots and `k` indices. -/
def unitOn (m : BitVec 32) (k : BitVec 8) (seedA seedB : Word) : UnitRegs :=
  { constr := true, m := m, k := k, seedA := seedA, seedB := seedB }

/-- Two unconstructed units, nothing at the ports. -/
def idle : State where
  b := noUnit
  c := noUnit
  ssat := false
  sunf := false
  arr := []
  cnt := []
  front := none
  rsp := none
  stall := 0
  held := none
  edges := []
  taken := []
  tick := 0

/-- Unit B of `CONS.B 64, 3, 0x0, 0x1` (V6). -/
def onB (arr : Memory 1) : State := { idle with b := unitOn 64 3 0 1, arr := arr }

/-- Unit C of `CONS.C 16, 2, 0x5, 0x9` (V7, P2). -/
def onC (cnt : Memory 4) : State := { idle with c := unitOn 16 2 5 9, cnt := cnt }

/-- Unit C of `CONS.C 1, 3, 0x0, 0x0` (P3). -/
def oneC (cnt : Memory 4) : State := { idle with c := unitOn 1 3 0 0, cnt := cnt }

/-- The state an outcome answers, if any. -/
def nextOf : Host.Outcome State Fault Refusal → Option State
  | .next s => some s
  | .fault _ => none
  | .refused _ => none

/-- The response after an outcome. -/
def rspOf (o : Host.Outcome State Fault Refusal) : Option Word := (nextOf o).bind (·.rsp)

/-- The bit array after an outcome. -/
def arrOf (o : Host.Outcome State Fault Refusal) : Option (Memory 1) := (nextOf o).map (·.arr)

/-- The counters after an outcome. -/
def cntOf (o : Host.Outcome State Fault Refusal) : Option (Memory 4) := (nextOf o).map (·.cnt)

/-- The sticky flags `SSAT`, `SUNF` after an outcome. -/
def stickyOf (o : Host.Outcome State Fault Refusal) : Option (Bool × Bool) := (nextOf o).map fun s => (s.ssat, s.sunf)

/-! ### Well-formed commands: one that is refused for each check -/

theorem test_wf_insB_short : (Instr.insB 9 [0x1]).wf = false := by decide
theorem test_wf_insC_long : (Instr.insC 8 [0x1, 0x0]).wf = false := by decide
theorem test_wf_qryB_long : (Instr.qryB 0 [0x0]).wf = false := by decide
theorem test_wf_qryC_short : (Instr.qryC 1 []).wf = false := by decide
theorem test_wf_remB_short : (Instr.remB 17 [0x1, 0x2]).wf = false := by decide
theorem test_wf_remC_long : (Instr.remC 16 [0x1, 0x2, 0x3]).wf = false := by decide
theorem test_wf_nine_bytes : (Instr.qryC 9 [0x6867666564636261, 0x69]).wf = true := by decide
theorem test_wf_empty_item : (Instr.insC 0 []).wf = true := by decide

/-! ### Decoding: words written from R71 field by field, `OP U RSV K LEN M`, and from the tables R87 and V2 -/

theorem test_decode_consB : decodeWords
    [0b0001#4 ++ 0b0#1 ++ 0b000#3 ++ 0b00000011#8 ++ 0b0000000000000000#16 ++ 0b00000000000000000000000001000000#32,
      0x0, 0x1] = some (.consB 3 64 0 1) := by decide
theorem test_decode_consC : decodeWords [0x1807000000002572, 0x5, 0x9] = some (.consC 7 9586 5 9) := by decide
theorem test_decode_dstrB : decodeWords
    [0b0010#4 ++ 0b0#1 ++ 0b000#3 ++ 0b00000000#8 ++ 0b0000000000000000#16 ++ 0b00000000000000000000000000000000#32]
    = some .dstrB := by decide
theorem test_decode_dstrC : decodeWords [0x2800000000000000] = some .dstrC := by decide
theorem test_decode_insB : decodeWords
    [0b0011#4 ++ 0b0#1 ++ 0b000#3 ++ 0b00000000#8 ++ 0b0000000000000001#16 ++ 0b00000000000000000000000000000000#32, 0x1]
    = some (.insB 1 [0x1]) := by decide
theorem test_decode_insC : decodeWords [0x3800000100000000, 0x1] = some (.insC 1 [0x1]) := by decide
theorem test_decode_qryB : decodeWords [0x4000000900000000, 0x6867666564636261, 0x69] =
    some (.qryB 9 [0x6867666564636261, 0x69]) := by decide
theorem test_decode_qryC : decodeWords
    [0b0100#4 ++ 0b1#1 ++ 0b000#3 ++ 0b00000000#8 ++ 0b0000000000001001#16 ++ 0b00000000000000000000000000000000#32,
      0x6867666564636261, 0x69] = some (.qryC 9 [0x6867666564636261, 0x69]) := by decide
theorem test_decode_remB : decodeWords [0x5000000100000000, 0x1] = some (.remB 1 [0x1]) := by decide
theorem test_decode_remC : decodeWords
    [0b0101#4 ++ 0b1#1 ++ 0b000#3 ++ 0b00000000#8 ++ 0b0000000000001000#16 ++ 0b00000000000000000000000000000000#32, 0x2]
    = some (.remC 8 [0x2]) := by decide
theorem test_decode_statB : decodeWords [0x6000000000000000] = some .statB := by decide
theorem test_decode_statC : decodeWords
    [0b0110#4 ++ 0b1#1 ++ 0b000#3 ++ 0b00000000#8 ++ 0b0000000000000000#16 ++ 0b00000000000000000000000000000000#32]
    = some .statC := by decide

theorem test_decode_zero_word : decode 0x0 [] = .error .illegalOpcode := by decide
theorem test_decode_opcode_seven : decode 0x7000000000000000 [] = .error .illegalOpcode := by decide
theorem test_decode_opcode_before_fields : decode 0x9fff000000000000 [] = .error .illegalOpcode := by decide
theorem test_decode_dstr_len : decode 0x2800000800000000 [] = .error .reservedField := by decide
theorem test_decode_rem_rsv : decode 0x5100000100000000 [0x1] = .error .reservedField := by decide
theorem test_decode_cons_len : decode 0x1001000100000008 [0, 0] = .error .reservedField := by decide
theorem test_decode_ins_k : decode 0x3001000100000000 [0x1] = .error .reservedField := by decide
theorem test_decode_qry_m : decode 0x4000000100000001 [0x1] = .error .reservedField := by decide

theorem test_payload_words : [0x1003000000000040, 0x4000000000000000, 0x4000000100000000, 0x4000000800000000,
    0x4000000900000000, 0x4000004100000000, 0x4000ffff00000000, 0x2800000800000000].map payloadWords =
    [2, 0, 1, 1, 2, 9, 8192, 0] := by decide

theorem test_table_word_cons : decodeTableWord 192 (0x1003000000000040 + 2 ^ 128) = some (.consB 3 64 0 1) := by decide
theorem test_table_word_short : decodeTableWord 64 0x3800000900000000 = some (.insC 9 [0, 0]) := by decide

/-! ### Items (R74, R84), `HASH_T` (V3), indices (V4) -/

theorem test_item_bytes : itemBytes 9 [0x6867666564636261, 0xffeeddccbbaa9969] =
    [0x61, 0x62, 0x63, 0x64, 0x65, 0x66, 0x67, 0x68, 0x69] := by decide
theorem test_item_of_text : itemOfText "abcdefghi" = [0x61, 0x62, 0x63, 0x64, 0x65, 0x66, 0x67, 0x68, 0x69] := by decide
theorem test_pack_item : packItem (itemOfText "abcdefghi") = [0x6867666564636261, 0x69] := by decide
theorem test_pack_u64 : packItem (itemOfU64 1) = [0x1] ∧ itemLenField (itemOfU64 1) = 8 := by decide
theorem test_insert_item : insertItem .B [0x01] = .insB 1 [0x1] ∧ encode (removeItem .C (itemOfU64 2)) =
    [0x5800000800000000, 0x2] := by decide

theorem test_hash_order : Config.hashT 0 [0x00, 0x00] = 258 ∧ Config.hashT 0 [0x01] = 2 := by decide
theorem test_hash_wraps : Config.hashT 0xffffffffffffffff [0xff] = 0xffffffffffffffff := by decide
theorem test_hash_u64 : Config.hashT 0x0123456789abcdef (itemOfU64 1) = 0x92f8ee411f8c68f8 := by decide

theorem test_indices_16 : indices Config.cfgT (unitOn 16 2 5 9) [0x09] = [15, 2] := by decide
theorem test_indices_9586 :
    indices Config.cfgT (unitOn 9586 7 0x0123456789abcdef 0xfedcba9876543210) (itemOfU64 1) =
      [6042, 7587, 9132, 1091, 2636, 4181, 5726] := by decide
theorem test_indexer_hardware : indexerRun 5 (indexerStart 0x8000000000000000 0x8000000000000001 1000 4) =
    [808, 617, 426, 235] := by decide

/-- V4, first row: the second index fails the test, the indexer is aborted there. -/
theorem test_indexer_aborts : indexerScan (fun j => j == 2) 3 (indexerStart 2 259 64 3) = ((false, 2), indexerIdle) := by
  decide

/-! ### Slots (V7) -/

theorem test_sat_inc : satInc 14 = 15 ∧ satInc 15 = 15 ∧ satMark 15 = true ∧ satMark 14 = false := by decide
theorem test_floor_dec : floorDec 1 = 0 ∧ floorDec 0 = 0 ∧ floorDec 15 = 14 ∧ unfMark 0 = true := by decide
theorem test_write_zero_unlists : Memory.write [(2, 1), (5, 3)] 2 (0#4) = [(5, 3#4)] := by decide
theorem test_write_between : Memory.write [(2, 1#4), (5, 3)] 4 (7#4) = [(2, 1), (4, 7), (5, 3)] := by decide

/-! ### Commands, one step each -/

/-- V5 row 6. -/
theorem test_consB_clears : (nextOf (consB Config.cfgT 1 65536 0 0 { idle with arr := [(5, 1), (65536, 1)] })).map
    (fun s => (s.b, s.arr, s.rsp)) = some (unitOn 65536 1 0 0, [(65536, 1)], some 0x1000000000000000) := by decide
/-- V5 row 5. -/
theorem test_consB_capacity : rspOf (consB Config.cfgT 1 65537 0 0 idle) = some 0x1009000000000000 := by decide
/-- V8: code 8 beats code 9. -/
theorem test_consB_order : rspOf (consB Config.cfgT 0 70000 0 0 idle) = some 0x1008000000000000 := by decide
/-- P2 step 1, over old flags. -/
theorem test_consC_clears_flags : (nextOf (consC Config.cfgT 2 16 5 9 { idle with ssat := true, sunf := true })).map
    (fun s => (s.c, s.ssat, s.sunf, s.rsp)) = some (unitOn 16 2 5 9, false, false, some 0x1800000000000000) := by decide
/-- 60_exceptions R207. -/
theorem test_consC_twice : rspOf (consC Config.cfgT 0 0 0 0 (onC [])) = some 0x1806000000000000 := by decide
/-- V5 row 9. -/
theorem test_dstrB : (nextOf (exec .dstrB (onB []))).map (fun s => (s.b.constr, s.rsp)) =
    some (false, some 0x2000000000000000) := by decide
/-- V5 row 10. -/
theorem test_dstrB_unconstructed : rspOf (exec .dstrB idle) = some 0x2005000000000000 := by decide
/-- R113: the sticky flags end with the filter. -/
theorem test_dstrC_flags : stickyOf (exec .dstrC { onC [] with ssat := true, sunf := true }) = some (false, false) := by
  decide
/-- V8. -/
theorem test_dstrC_unconstructed : rspOf (exec .dstrC idle) = some 0x2805000000000000 := by decide
/-- V6 row 2. -/
theorem test_insB_sets : arrOf (insB Config.cfgT 1 [0x1] (onB [])) = some [(2, 1), (5, 1), (8, 1)] := by decide
/-- V6 row 2. -/
theorem test_insB_response : rspOf (insB Config.cfgT 1 [0x1] (onB [])) = some 0x3000030000000000 := by decide
/-- V6 row 4. -/
theorem test_qryB_absent : rspOf (qryB Config.cfgT 1 [0x2] (onB [(2, 1), (5, 1), (8, 1)])) = some 0x4000010000000000 := by
  decide
/-- V6, the short-circuit in the middle. -/
theorem test_qryB_stops_third : rspOf (qryB Config.cfgT 1 [0x1] (onB [(2, 1), (5, 1)])) = some 0x4000030000000000 := by
  decide
/-- P2 step 3. -/
theorem test_insC_counts : cntOf (insC Config.cfgT 1 [0x9] (onC [(2, 1), (7, 1)])) = some [(2, 2), (7, 1), (15, 1)] := by
  decide
/-- P3 step 7: a counter that a repeated index fills. -/
theorem test_insC_saturates : (nextOf (insC Config.cfgT 0 [] (oneC [(0, 15)]))).map
    (fun s => (s.cnt, s.ssat, s.rsp)) = some ([(0, 15)], true, some 0x3800030200000000) := by decide
/-- P2 step 9: a false negative after over-removal. -/
theorem test_qryC_second_zero : rspOf (qryC Config.cfgT 1 [0x1] (onC [(7, 1)])) = some 0x4800020000000000 := by decide
/-- P2 step 4. -/
theorem test_qryC_present : rspOf (qryC Config.cfgT 1 [0x1] (onC [(2, 2), (7, 1), (15, 1)])) = some 0x4800020100000000 := by
  decide
/-- V6 row 8. -/
theorem test_remB : rspOf (exec (.remB 1 [0x1]) (onB [(2, 1), (5, 1), (8, 1)])) = some 0x5003000000000000 := by decide
/-- V8: code 3 beats code 4. -/
theorem test_remB_long : rspOf (exec (.remB 65 [1, 2, 3, 4, 5, 6, 7, 8, 9]) idle) = some 0x5003000000000000 := by decide
/-- P2 step 8. -/
theorem test_remC_floors : (nextOf (remC Config.cfgT 1 [0x9] (onC [(2, 1), (7, 1)]))).map
    (fun s => (s.cnt, s.sunf, s.rsp)) = some ([(7, 1)], true, some 0x5800020400000000) := by decide
/-- P3 step 8: three decrements of one counter. -/
theorem test_remC_repeats : cntOf (remC Config.cfgT 0 [] (oneC [(0, 15)])) = some [(0, 12)] := by decide
/-- R114. -/
theorem test_statB : rspOf (exec .statB (onB [])) = some 0x6000030800000040 := by decide
/-- V5 row 12: zeros, whatever the registers hold. -/
theorem test_statB_unconstructed : rspOf (exec .statB { idle with b := { noUnit with m := 7, k := 7 } }) =
    some 0x6000000000000000 := by decide
/-- P3 step 15. -/
theorem test_statC : rspOf (exec .statC { oneC [] with ssat := true, sunf := true }) = some 0x6800030e00000001 := by decide
/-- P2 step 10. -/
theorem test_statC_unf : rspOf (exec .statC { onC [] with sunf := true }) = some 0x6800020c00000010 := by decide

/-- V8: the item commands that are refused under `CFG_T`. -/
theorem test_item_errors :
    rspOf (insC Config.cfgT 65 [] idle) = some 0x3804000000000000 ∧
    rspOf (insC Config.cfgT 1 [0x1] idle) = some 0x3805000000000000 ∧
    rspOf (qryB Config.cfgT 65 [] (onB [])) = some 0x4004000000000000 ∧
    rspOf (remC Config.cfgT 1 [0x1] idle) = some 0x5805000000000000 := by decide

/-! ### Edges -/

/-- V8, from reset: the header `9fff000000000000`. -/
theorem test_step_illegal : rspOf (step (State.reset.withFetchWord 64 0x9fff000000000000)) =
    some 0x9801000000000000 := by decide
/-- V8, from reset: `STAT.B` with `M = 1`. -/
theorem test_step_reserved : rspOf (step (State.reset.withFetchWord 64 0x6000000000000001)) =
    some 0x6002000000000000 := by decide
/-- V5 row 1, from reset. -/
theorem test_step_statB : rspOf (step (State.reset.withFetchWord 64 0x6000000000000000)) =
    some 0x6000000000000000 := by decide

/-- The host presents the header of `INS.C [01]` at the next edge. -/
def offering : State :=
  { idle with edges := [{ rst := false, cmdValid := true, cmdData := 0x3800000100000000, rspReady := false }] }

/-- R83, R72: the word is taken, one payload word is owed. -/
theorem test_step_takes_header : (nextOf (step offering)).map (fun s => (s.front, s.held)) =
    some (some { header := 0x3800000100000000, payload := [], owed := 1 }, none) := by decide
/-- R83: at a reset edge no word is taken. -/
theorem test_step_reset_edge : (nextOf (step { onC [(2, 1)] with
      ssat := true, rsp := some 0x3800020000000000, front := some { header := 0x1, payload := [], owed := 1 }
      edges := [{ rst := true, cmdValid := true, cmdData := 0x1, rspReady := true }] })).map
    (fun s => (s.c.constr, s.ssat, s.front, s.rsp, s.taken)) = some (false, false, none, none, []) := by decide
/-- R83: a response leaves when the host is ready. -/
theorem test_step_response_leaves : (nextOf (step { idle with
      rsp := some 0x2000000000000000, edges := [{ idleEdge with rspReady := true }] })).map (fun s => (s.rsp, s.taken)) =
    some (none, [0x2000000000000000]) := by decide

/-! ### Witnesses of the obligations' hypotheses -/

/-- Both units hold a filter of one slot and one index, which every implementation has room for, with the arrays
given; the empty item, which every implementation accepts, has the index 0. -/
def small (arr : Memory 1) (cnt : Memory 4) : State :=
  { idle with b := unitOn 1 1 0 0, c := unitOn 1 1 0 0, arr := arr, cnt := cnt }

theorem sizeOk_small (arr : Memory 1) (cnt : Memory 4) (u : UnitId) : sizeOk Config.hw u (small arr cnt) = true := by
  rw [sizeOk_iff]
  cases u
  · exact ⟨Nat.le_refl 1, Config.hw_legal.1.1⟩
  · exact ⟨Nat.le_refl 1, Config.hw_legal.2.1.1⟩

/-- The commands on the empty item are accepted. -/
theorem accepts_small (arr : Memory 1) (cnt : Memory 4) (u : UnitId) : Accepts u 0 (small arr cnt) :=
  ⟨by cases u <;> rfl, sizeOk_small arr cnt u, Nat.zero_le _⟩

theorem idx_small (item : List Byte) (i : Nat) : idx Config.hw (unitOn 1 1 0 0) item i = 0 := Nat.mod_one _

theorem indices_small (item : List Byte) : indices Config.hw (unitOn 1 1 0 0) item = [0] := by
  show [idx Config.hw (unitOn 1 1 0 0) item 0] = [0]
  rw [idx_small]

/-- The invariant holds of it. -/
theorem inv_small : Machine.Inv (small [] []) :=
  ⟨fun _ => ⟨Nat.le_refl 1, Config.hw_legal.1.1, Nat.le_refl 1⟩, fun _ => ⟨Nat.le_refl 1, Config.hw_legal.2.1.1, Nat.le_refl 1⟩,
    ⟨rfl, fun _ h => (nomatch h)⟩, ⟨rfl, fun _ h => (nomatch h)⟩, fun _ => ⟨rfl, rfl⟩, fun _ h => (nomatch h),
    fun _ => rfl, fun _ h => (nomatch h), fun _ h => (nomatch h)⟩

/-- The invariant holds with a command held whose payload is none. -/
theorem inv_withCommand (h : Word) (h0 : payloadWords h = 0) : Machine.Inv (withCommand (small [] []) h []) := by
  obtain ⟨h1, h2, h3, h4, h5, -, -, -, -⟩ := inv_small
  refine ⟨h1, h2, h3, h4, h5, fun p hp => ?_, fun hn => (nomatch hn), fun p hp => (nomatch hp), fun p hp => (nomatch hp)⟩
  cases hp
  exact ⟨Nat.zero_le _, by rw [h0]; simp⟩

/-- A complete command runs at an idle edge. -/
theorem runs_withCommand (s : State) (h : Word) (payload : List Word) : Runs (withCommand s h payload) h payload :=
  ⟨rfl, rfl, by simp [readyCommand]⟩

/-- A command that runs and has its effect. -/
theorem step_of_effect {s t : State} {h : Word} {payload : List Word} {i : Instr} (hr : Runs s h payload)
    (hd : decode h payload = .ok i) (he : Effect i (onEdge s) t) :
    step s = .next { t with rsp := some (successResponse i (onEdge s)).word } := by
  rw [step_of_runs hr, hd]
  exact exec_of_effect he

theorem step_withCommand {s t : State} {h : Word} {payload : List Word} {i : Instr} (hd : decode h payload = .ok i)
    (he : Effect i (onEdge (withCommand s h payload)) t) :
    step (withCommand s h payload) =
      .next { t with rsp := some (successResponse i (onEdge (withCommand s h payload))).word } :=
  step_of_effect (runs_withCommand _ _ _) hd he

/-- A unit C of one slot accepts the empty item. -/
theorem accepts_of_c {s : State} (h : s.c = unitOn 1 1 0 0) : Accepts .C 0 s := by
  refine ⟨by simp only [State.regs_C, h]; rfl, sizeOk_iff.2 ?_, Nat.zero_le _⟩
  simp only [State.regs_C, h]
  exact ⟨Nat.le_refl 1, Config.hw_legal.2.1.1⟩

theorem test_witness_EncodedCommandDecodesBack : (Instr.insB 9 [0x6867666564636261, 0x69]).wf = true := by decide

theorem test_witness_DecodedCommandEncodesBack :
    decode 0x3000000900000000 [0x6867666564636261, 0x69] = .ok (.insB 9 [0x6867666564636261, 0x69]) ∧
    [0x6867666564636261, (0x69 : Word)].length = payloadWords 0x3000000900000000 := by decide

/-- Each clause, at the boundaries of the opcode's range. -/
theorem test_witness_EveryHeaderIsSorted :
    ((opOf 0x0).toNat = 0 ∧ (opOf 0x7000000000000000).toNat = 7 ∧ (opOf 0xf000000000000000).toNat = 15) ∧
    ((opOf 0x1000000100000000).toNat = 1 ∧ fieldsOk 0x1000000100000000 = false) ∧
    ((opOf 0x6000000000000001).toNat = 6 ∧ fieldsOk 0x6000000000000001 = false) ∧
    ((opOf 0x1001000000000001).toNat = 1 ∧ fieldsOk 0x1001000000000001 = true ∧
      [0, (0 : Word)].length = payloadWords 0x1001000000000001) ∧
    ((opOf 0x6000000000000000).toNat = 6 ∧ fieldsOk 0x6000000000000000 = true ∧
      ([] : List Word).length = payloadWords 0x6000000000000000) := by decide

theorem test_witness_FrontEndTakesExactlyThePayload :
    [0x1, (0x2 : Word)].length = payloadWords 0x3000000900000000 ∧ 1 < payloadWords 0x3000000900000000 ∧
    ([] : List Word).length = payloadWords 0x4000000000000000 := by decide

theorem test_witness_PackedItemIsReadBack : (itemOfText "abcdefghi").length ≤ 65535 ∧ ([] : List Byte).length ≤ 65535 := by
  decide

/-- P5 rows 2 and 3: two payloads that differ in padding only. -/
theorem test_witness_PaddingIsIgnored : ∀ j < (9 : BitVec 16).toNat,
    ([0x6867666564636261, (0x69 : Word)].getD (j / 8) 0).extractLsb' (8 * (j % 8)) 8 =
      ([0x6867666564636261, (0xffeeddccbbaa9969 : Word)].getD (j / 8) 0).extractLsb' (8 * (j % 8)) 8 := by decide

theorem test_witness_StepRunsTheDecodedCommand :
    Runs (withCommand idle 0x6800000000000000 []) 0x6800000000000000 [] ∧ decode 0x6800000000000000 [] = .ok .statC :=
  ⟨runs_withCommand _ _ _, by decide⟩

theorem test_witness_PlacedInstructionRuns : decodeTableWord 64 0x6800000000000000 = some .statC := by decide

/-- Opcodes 0, 7 and 15. -/
theorem test_witness_IllegalOpcodeIsAnswered :
    Runs (withCommand idle 0x0 []) 0x0 [] ∧
    (Runs (withCommand idle 0x7000000000000000 []) 0x7000000000000000 [] ∧ 7 ≤ (opOf 0x7000000000000000).toNat) ∧
    Runs (withCommand idle 0xf800000000000000 []) 0xf800000000000000 [] :=
  ⟨runs_withCommand _ _ _, ⟨runs_withCommand _ _ _, by decide⟩, runs_withCommand _ _ _⟩

/-- Each of the four ways a must-be-zero field is not zero, and the worked word. -/
theorem test_witness_ReservedFieldIsAnswered :
    (Runs (withCommand idle 0x6100000000000000 []) 0x6100000000000000 [] ∧ rsvOf 0x6100000000000000 ≠ 0) ∧
    (Runs (withCommand idle 0x1001000100000008 [0, 0]) 0x1001000100000008 [0, 0] ∧
      (opOf 0x1001000100000008).toNat = 1 ∧ lenOf 0x1001000100000008 ≠ 0) ∧
    (Runs (withCommand idle 0x5801000100000000 [1]) 0x5801000100000000 [1] ∧
      (opOf 0x5801000100000000).toNat = 5 ∧ kOf 0x5801000100000000 ≠ 0) ∧
    (Runs (withCommand idle 0x2000000800000000 []) 0x2000000800000000 [] ∧
      (opOf 0x2000000800000000).toNat = 2 ∧ lenOf 0x2000000800000000 ≠ 0) ∧
    Runs (withCommand idle 0x6000000000000001 []) 0x6000000000000001 [] :=
  ⟨⟨runs_withCommand _ _ _, by decide⟩, ⟨runs_withCommand _ _ _, by decide⟩, ⟨runs_withCommand _ _ _, by decide⟩,
    ⟨runs_withCommand _ _ _, by decide⟩, runs_withCommand _ _ _⟩

theorem test_witness_RemBIsRefusedByItsCode : payloadFits 1 [0x1] = true ∧ payloadFits 0 [] = true := by decide

/-- Also for the clause of each command on an item. -/
theorem test_witness_LongItemIsAnswered : Config.cfgT.itemMax < (65 : BitVec 16).toNat := by decide

/-- Also for the last clause of each command on an item; the length at its boundary. -/
theorem test_witness_UnconstructedUnitIsAnswered :
    idle.b.constr = false ∧ idle.c.constr = false ∧ (0 : BitVec 16).toNat ≤ Config.hw.itemMax ∧
    (BitVec.ofNat 16 Config.hw.itemMax).toNat ≤ Config.hw.itemMax :=
  ⟨rfl, rfl, Nat.zero_le _, by rw [BitVec.toNat_ofNat]; exact Nat.mod_le _ _⟩

theorem test_witness_SecondConstructionIsAnswered : (onB []).b.constr = true ∧ (onC []).c.constr = true := by decide

theorem test_witness_BadSizeIsAnswered :
    idle.b.constr = false ∧ idle.c.constr = false ∧ (65537 : BitVec 32) ≠ 0 ∧ (1 : BitVec 8) ≠ 0 ∧
    Config.cfgT.mMaxB < (65537 : BitVec 32).toNat ∧ Config.cfgT.mMaxC < (65537 : BitVec 32).toNat := by decide

theorem test_witness_ErrorsChangeNothingElse : ∃ t r,
    Runs (withCommand idle 0x0 []) 0x0 [] ∧ step (withCommand idle 0x0 []) = .next t ∧ t.rsp = some r ∧ codeOf r ≠ 0 :=
  ⟨_, 0x0001000000000000, runs_withCommand _ _ _, rfl, by decide, by decide⟩

/-- A command to which no error applies, and one to which code 1 does. -/
theorem test_witness_LowestErrorCodeIsReported :
    Machine.Inv (withCommand (small [] []) 0x6000000000000000 []) ∧
    Runs (withCommand (small [] []) 0x6000000000000000 []) 0x6000000000000000 [] ∧
    Machine.Inv (withCommand (small [] []) 0x0 []) ∧ Runs (withCommand (small [] []) 0x0 []) 0x0 [] :=
  ⟨inv_withCommand _ (by decide), runs_withCommand _ _ _, inv_withCommand _ (by decide), runs_withCommand _ _ _⟩

/-- A step at which a command runs, and one at which none does. -/
theorem test_witness_OneResponsePerCommandInOrder :
    ((nextEdge (withCommand idle 0x0 [])).rst = false ∧ (∃ t, step (withCommand idle 0x0 []) = .next t) ∧
      readyCommand (withCommand idle 0x0 []) = some (0x0, [])) ∧
    ((nextEdge idle).rst = false ∧ (∃ t, step idle = .next t) ∧ readyCommand idle = none) :=
  ⟨⟨rfl, ⟨_, rfl⟩, rfl⟩, rfl, ⟨_, rfl⟩, rfl⟩

/-- The least filter, and the largest. -/
theorem test_witness_ConsBConstructs :
    idle.b.constr = false ∧ (1 : BitVec 32) ≠ 0 ∧ (1 : BitVec 8) ≠ 0 ∧ (1 : BitVec 32).toNat ≤ Config.hw.mMaxB ∧
    BitVec.ofNat 32 Config.hw.mMaxB ≠ 0 ∧ (BitVec.ofNat 32 Config.hw.mMaxB).toNat = Config.hw.mMaxB := by
  have h := Config.hw_legal.1
  have e : (BitVec.ofNat 32 Config.hw.mMaxB).toNat = Config.hw.mMaxB := by rw [BitVec.toNat_ofNat]; omega
  refine ⟨rfl, by decide, by decide, h.1, fun h0 => ?_, e⟩
  rw [h0] at e
  have : (0 : BitVec 32).toNat = 0 := rfl
  omega

theorem test_witness_ConsCConstructs :
    idle.c.constr = false ∧ (1 : BitVec 32) ≠ 0 ∧ (1 : BitVec 8) ≠ 0 ∧ (1 : BitVec 32).toNat ≤ Config.hw.mMaxC ∧
    BitVec.ofNat 32 Config.hw.mMaxC ≠ 0 ∧ (BitVec.ofNat 32 Config.hw.mMaxC).toNat = Config.hw.mMaxC := by
  have h := Config.hw_legal.2.1
  have e : (BitVec.ofNat 32 Config.hw.mMaxC).toNat = Config.hw.mMaxC := by rw [BitVec.toNat_ofNat]; omega
  refine ⟨rfl, by decide, by decide, h.1, fun h0 => ?_, e⟩
  rw [h0] at e
  have : (0 : BitVec 32).toNat = 0 := rfl
  omega

/-- Each error of `CONS.u`. -/
theorem test_witness_cons_errors :
    (onB []).b.constr = true ∧ (onC []).c.constr = true ∧
    Config.cfgT.mMaxB < (65537 : BitVec 32).toNat ∧ Config.cfgT.mMaxC < (65537 : BitVec 32).toNat := by decide

theorem test_witness_DestroyEndsTheLifetime :
    (small [] []).b.constr = true ∧ (small [] []).c.constr = true ∧ idle.b.constr = false ∧ idle.c.constr = false := by
  decide

/-- A step that constructs unit B: the exception of the statement. -/
theorem test_witness_ParametersAreImmutable :
    ∃ t, step (withCommand idle 0x1001000000000001 [0x0, 0x1]) = .next t ∧ t.b = unitOn 1 1 0x0 0x1 :=
  ⟨_, step_withCommand (i := .consB 1 1 0x0 0x1) (by decide)
    ⟨⟨rfl, by decide, by decide, Config.hw_legal.1.1⟩, rfl⟩, rfl⟩

/-- A step that sets a bit and one that lowers a counter. -/
theorem test_witness_SlotsChangeOnlyByTheirCommands :
    (∃ t, step (withCommand (small [] []) 0x3000000000000000 []) = .next t ∧
      Memory.wf (small [] []).cnt = true ∧ Memory.read t.arr 0 ≠ Memory.read (small [] []).arr 0) ∧
    ∃ t, step (withCommand (small [] [(0, 2)]) 0x5800000000000000 []) = .next t ∧
      Memory.wf (small [] [(0, 2)]).cnt = true ∧ Memory.read t.cnt 0 ≠ Memory.read (small [] [(0, 2)]).cnt 0 := by
  constructor
  · refine ⟨_, step_withCommand (i := .insB 0 []) (by decide) ⟨accepts_small [] [] .B, rfl⟩, rfl, ?_⟩
    show Memory.read (setBits (indices Config.hw (unitOn 1 1 0 0) _) []) 0 ≠ 0
    rw [indices_small]; decide
  · refine ⟨_, step_withCommand (i := .remC 0 []) (by decide) ⟨accepts_small [] [(0, 2)] .C, rfl⟩, by decide, ?_⟩
    show Memory.read (decAll (indices Config.hw (unitOn 1 1 0 0) _) [(0, 2)]).1 0 ≠ 2
    rw [indices_small]; decide

theorem test_witness_UnitsAreIndependent : ∃ t, exec .statB idle = .next t := ⟨_, rfl⟩

/-- The empty item, and an item of the greatest length. -/
theorem test_witness_InsBSetsTheBits : payloadFits 1 [0x1] = true ∧ Accepts .B 0 (small [] []) ∧
    Accepts .B (BitVec.ofNat 16 Config.hw.itemMax) (small [] []) ∧ (0 : BitVec 16).toNat ≤ Config.hw.itemMax ∧
    idle.b.constr = false :=
  ⟨by decide, accepts_small _ _ _,
    ⟨rfl, sizeOk_small _ _ .B, by rw [BitVec.toNat_ofNat]; exact Nat.mod_le _ _⟩, Nat.zero_le _, rfl⟩

/-- All bits 1, and the first bit 0. -/
theorem test_witness_QryBAnswers :
    (Accepts .B 0 (small [(0, 1)] []) ∧
      ∀ i < ((small [(0, 1)] []).b.k).toNat,
        Memory.read (small [(0, 1)] []).arr (idx Config.hw (small [(0, 1)] []).b (itemBytes 0 []) i) = 1) ∧
    (Accepts .B 0 (small [] []) ∧ 0 < ((small [] []).b.k).toNat ∧
      Memory.read (small [] []).arr (idx Config.hw (small [] []).b (itemBytes 0 []) 0) = 0) :=
  ⟨⟨accepts_small _ _ _, fun i _ => by
      show Memory.read [(0, 1)] (idx Config.hw (unitOn 1 1 0 0) _ i) = 1
      rw [idx_small]; rfl⟩,
    accepts_small _ _ _, by decide, rfl⟩

theorem test_witness_InsCCountsUp : payloadFits 1 [0x1] = true ∧ Accepts .C 0 (small [] []) ∧ idle.c.constr = false :=
  ⟨by decide, accepts_small _ _ _, rfl⟩

theorem test_witness_QryCAnswers :
    (Accepts .C 0 (small [] [(0, 15)]) ∧
      ∀ i < ((small [] [(0, 15)]).c.k).toNat,
        Memory.read (small [] [(0, 15)]).cnt (idx Config.hw (small [] [(0, 15)]).c (itemBytes 0 []) i) ≠ 0) ∧
    (Accepts .C 0 (small [] []) ∧ 0 < ((small [] []).c.k).toNat ∧
      Memory.read (small [] []).cnt (idx Config.hw (small [] []).c (itemBytes 0 []) 0) = 0) :=
  ⟨⟨accepts_small _ _ _, fun i _ => by
      show Memory.read [(0, 15)] (idx Config.hw (unitOn 1 1 0 0) _ i) ≠ (0 : BitVec 4)
      rw [idx_small]; decide⟩,
    accepts_small _ _ _, by decide, rfl⟩

theorem test_witness_RemCCountsDown : Accepts .C 0 (small [] [(0, 2)]) ∧ Memory.wf (small [] [(0, 2)]).cnt = true :=
  ⟨accepts_small _ _ _, by decide⟩

/-- An insert, and a step later a state of the same lifetime. -/
theorem test_witness_NoFalseNegativesOnUnitB : ∃ t u r, exec (.insB 0 []) (small [] []) = .next t ∧ t.rsp = some r ∧
    codeOf r = 0 ∧ step t = .next u ∧ LiveB t u ∧ itemBytes 0 [] = itemBytes 0 [] := by
  refine ⟨_, _, _, exec_of_effect (i := .insB 0 []) ⟨accepts_small [] [] .B, rfl⟩, rfl, codeOf_word _, rfl,
    .edge _ _ _ (.start _) ?_ rfl, rfl⟩
  rintro (h | ⟨_, _, h, _⟩) <;> cases h

/-- The same item twice, and two items in both orders. -/
theorem test_witness_InsertsOnUnitBCommute :
    (∃ t u, Memory.wf (small [] []).arr = true ∧ exec (.insB 0 []) (small [] []) = .next t ∧
      exec (.insB 0 []) t = .next u) ∧
    ∃ t, (small [(0, 1)] []).b.constr = true ∧ step (small [(0, 1)] []) = .next t ∧
      Memory.read (small [(0, 1)] []).arr 0 = 1 :=
  ⟨⟨_, _, rfl, exec_of_effect (i := .insB 0 []) ⟨accepts_small [] [] .B, rfl⟩,
    exec_of_effect (i := .insB 0 []) ⟨⟨rfl, sizeOk_small [] [] .B, Nat.zero_le _⟩, rfl⟩⟩, _, rfl, rfl, rfl⟩

/-- As many inserts as wanted can be made. -/
theorem inserts_exist : ∀ n : Nat, ∃ t, InsertsC 0 [] n (small [] []) t ∧ t.c = unitOn 1 1 0 0
  | 0 => ⟨_, .zero _, rfl⟩
  | n + 1 => by
    obtain ⟨t, h, hc⟩ := inserts_exist n
    exact ⟨_, .succ n _ _ _ h (exec_of_effect (i := .insC 0 []) ⟨accepts_of_c hc, rfl⟩), hc⟩

theorem test_witness_CountersSaturate : Memory.wf (small [] []).cnt = true ∧ Accepts .C 0 (small [] []) ∧
    (small [] []).c.k ≠ 0 ∧ (∃ t, InsertsC 0 [] 15 (small [] []) t) ∧
    (∃ t, exec (.insC 0 []) (small [] []) = .next t) ∧ ∃ t, exec (.remC 0 []) (small [] []) = .next t :=
  ⟨rfl, accepts_small _ _ _, by decide, (inserts_exist 15).elim fun t h => ⟨t, h.1⟩,
    ⟨_, exec_of_effect (i := .insC 0 []) ⟨accepts_small [] [] .C, rfl⟩⟩,
    ⟨_, exec_of_effect (i := .remC 0 []) ⟨accepts_small [] [] .C, rfl⟩⟩⟩

/-- The insert of the empty item on a fresh filter. -/
theorem test_witness_InsertThenRemoveRestores : ∃ t, Memory.wf (small [] []).cnt = true ∧ Accepts .C 0 (small [] []) ∧
    exec (.insC 0 []) (small [] []) = .next t ∧
    t.rsp = some (Response.word { op := 3, u := .C, sat := false, pk := (small [] []).c.k }) := by
  refine ⟨_, rfl, accepts_small _ _ _, exec_of_effect (i := .insC 0 []) ⟨accepts_small [] [] .C, rfl⟩, ?_⟩
  have h : indices Config.hw (small [] []).c (itemBytes 0 []) = [0] := indices_small _
  simp only [successResponse, h]
  rfl

/-- Unit C of one slot and one index in an honest lifetime, at edge number `tick`, with the pins `pins` to come. -/
def Honest (s : State) (n : List Byte →₀ ℕ) (cnt : Memory 4) (tick : Nat) (pins : List Edge) : Prop :=
  HonestC s n ∧ s.c = unitOn 1 1 0 0 ∧ s.cnt = cnt ∧ s.ssat = false ∧ s.held = none ∧ s.tick = tick ∧ s.edges = pins

/-- The same, with the header `w` of a command of no payload held complete, and no response waiting. -/
def Holds (s : State) (n : List Byte →₀ ℕ) (cnt : Memory 4) (w : Word) (stall tick : Nat) (pins : List Edge) : Prop :=
  Honest s n cnt tick pins ∧ s.front = some { header := w, payload := [], owed := 0 } ∧ s.rsp = none ∧ s.stall = stall

/-- The core's own work passes, edge by edge. -/
theorem holds_ready {n : List Byte →₀ ℕ} {cnt : Memory 4} {w : Word} {pins : List Edge} : ∀ {stall tick : Nat} {s : State},
    Holds s n cnt w stall tick (List.replicate stall idleEdge ++ pins) →
      ∃ s', Holds s' n cnt w 0 (tick + stall) pins
  | 0, _, s, h => ⟨s, h⟩
  | stall + 1, tick, s, h => by
    obtain ⟨⟨h1, h2, h3, h4, h5, h6, h7⟩, h8, h9, h10⟩ := h
    have he : nextEdge s = idleEdge := by simp [nextEdge, h7, List.replicate_succ]
    have hq : readyCommand s = none := by simp [readyCommand, h8, h10]
    have hr : (nextEdge s).rst = false := by rw [he]; rfl
    have hw : wordTransfers s idleEdge = false := by simp [wordTransfers, idleEdge]
    obtain ⟨s', h'⟩ := holds_ready (s := transfer Config.hw s (nextEdge s)) (stall := stall) (tick := tick + 1) (w := w)
      (pins := pins) (n := n) (cnt := cnt)
      ⟨⟨.edge _ _ _ h1 ⟨hr, fun _ _ _ h => by rw [hq] at h; cases h⟩ (step_of_quiet hr (by simp [hostBreach, h5]) hq),
          h2, h3, h4, by simp [he, stillHeld, idleEdge], by simp [h6], by simp [h7, List.replicate_succ]⟩,
        by simp [he, hw, h8], by simp [h9], by simp [he, hw, h10]⟩
    exact ⟨s', by rwa [show tick + (stall + 1) = tick + 1 + stall by omega]⟩

/-- A core that waits takes its response's and the next command's edges, and holds the command ready. -/
theorem honest_holds {n : List Byte →₀ ℕ} {cnt : Memory 4} {tick : Nat} {w : Word} (hw : payloadWords w = 0)
    (h : ∀ pins, ∃ s, Honest s n cnt tick pins ∧ s.front = none ∧ s.stall = 0) :
    ∃ tick', ∀ pins, ∃ s, Holds s n cnt w 0 tick' pins := by
  refine ⟨tick + 1 + 1 + Config.busyEdges (tick + 1), fun pins => ?_⟩
  obtain ⟨s, ⟨h1, h2, h3, h4, h5, h6, h7⟩, h8, h9⟩ := h ({ idleEdge with rspReady := true } ::
    { idleEdge with cmdValid := true, cmdData := w } :: (List.replicate (Config.busyEdges (tick + 1)) idleEdge ++ pins))
  have e1 : nextEdge s = { idleEdge with rspReady := true } := by simp [nextEdge, h7]
  have q1 : readyCommand s = none := by simp [readyCommand, h8]
  have r1 : (nextEdge s).rst = false := by rw [e1]; rfl
  have s1 := step_of_quiet r1 (by simp [hostBreach, h5]) q1
  have t1 : wordTransfers s { idleEdge with rspReady := true } = false := by simp [wordTransfers, idleEdge]
  have c1 := HonestC.edge _ _ _ h1 ⟨r1, fun _ _ _ h => by rw [q1] at h; cases h⟩ s1
  generalize hu : transfer Config.hw s (nextEdge s) = u at c1
  have u_front : u.front = none := by rw [← hu]; simp [e1, t1, h8]
  have u_rsp : u.rsp = none := by
    rw [← hu]; cases hr : s.rsp <;> simp [e1, responseTransfers, rspValid, hr, idleEdge]
  have u_stall : u.stall = 0 := by rw [← hu]; simp [e1, t1, h9]
  have u_held : u.held = none := by rw [← hu]; simp [e1, stillHeld, idleEdge]
  have u_edges : u.edges = { idleEdge with cmdValid := true, cmdData := w } ::
    (List.replicate (Config.busyEdges (tick + 1)) idleEdge ++ pins) := by rw [← hu]; simp [h7]
  have u_tick : u.tick = tick + 1 := by rw [← hu]; simp [h6]
  have e2 : nextEdge u = { idleEdge with cmdValid := true, cmdData := w } := by simp [nextEdge, u_edges]
  have q2 : readyCommand u = none := by simp [readyCommand, u_front]
  have r2 : (nextEdge u).rst = false := by rw [e2]; rfl
  have t2 : wordTransfers u (nextEdge u) = true := by
    rw [e2]; simp [wordTransfers, cmdReady, u_stall, u_front, u_rsp, frontComplete, idleEdge]
  refine holds_ready (s := transfer Config.hw u (nextEdge u)) (stall := Config.busyEdges (tick + 1))
    ⟨⟨.edge _ _ _ c1 ⟨r2, fun _ _ _ h => by rw [q2] at h; cases h⟩
        (step_of_quiet r2 (by simp [hostBreach, u_held]) q2), ?_, ?_, ?_, ?_, ?_, ?_⟩, ?_, ?_, ?_⟩
  · rw [← hu] at *; simpa using h2
  · rw [← hu] at *; simpa using h3
  · rw [← hu] at *; simpa using h4
  · simp [stillHeld, t2]
  · simp [u_tick]
  · simp [u_edges]
  · rw [transfer_front, if_pos t2, e2, u_front]
    simp [acceptWord, acceptHeader, hw]
  · simp [u_rsp]
  · simp [t2, u_tick]

/-- A command held ready runs at the coming edge. -/
theorem holds_runs {s : State} {n : List Byte →₀ ℕ} {cnt : Memory 4} {w : Word} {tick : Nat} {pins : List Edge}
    (h : Holds s n cnt w 0 tick (idleEdge :: pins)) : Runs s w [] := by
  obtain ⟨⟨-, -, -, -, h5, -, h7⟩, h8, h9, h10⟩ := h
  have e : nextEdge s = idleEdge := by simp [nextEdge, h7]
  exact ⟨by rw [e]; rfl, by simp [hostBreach, h5], readyCommand_eq_some.2 ⟨h8, h10, h9⟩⟩

/-- A lifetime of unit C through the port: construction, one insert of the empty item, one removal of it. -/
theorem test_witness_HonestUseHasNoFalseNegatives : ∃ s t, HonestC s (0 + Finsupp.single (itemBytes 0 []) 1) ∧
    1 ≤ (0 + Finsupp.single (itemBytes 0 []) 1 : List Byte →₀ ℕ) (itemBytes 0 []) ∧ s.rsp = none ∧
    HonestC t (0 + Finsupp.single (itemBytes 0 []) 1 - Finsupp.single (itemBytes 0 []) 1) := by
  have d1 : decode 0x1801000000000001 [0, 0] = .ok (.consC 1 1 0 0) := by decide
  have d2 : decode 0x3800000000000000 [] = .ok (.insC 0 []) := by decide
  have d3 : decode 0x5800000000000000 [] = .ok (.remC 0 []) := by decide
  have hi : indices Config.hw (unitOn 1 1 0 0) (itemBytes 0 []) = [0] := indices_small _
  obtain ⟨t1, k1⟩ := honest_holds (w := 0x3800000000000000) (tick := 1) (n := 0) (cnt := []) (by decide) fun pins =>
    ⟨_, ⟨.fresh _ _ _ _ _ _ (withCommand { idle with edges := pins } 0x1801000000000001 [0, 0]) _ rfl rfl
      (runs_withCommand _ _ _) d1
      (step_withCommand d1 ⟨⟨rfl, by decide, by decide, Config.hw_legal.2.1.1⟩, rfl⟩) rfl, rfl, rfl, rfl, rfl, rfl, rfl⟩,
      rfl, rfl⟩
  have hn : 1 ≤ (0 + Finsupp.single (itemBytes 0 []) 1 : List Byte →₀ ℕ) (itemBytes 0 []) := by simp
  obtain ⟨t2, k2⟩ := honest_holds (w := 0x5800000000000000) (tick := t1 + 1) (cnt := [(0, 1)])
    (n := 0 + Finsupp.single (itemBytes 0 []) 1) (by decide) fun pins => by
    obtain ⟨s, hs⟩ := k1 (idleEdge :: pins)
    have hr := holds_runs hs
    obtain ⟨⟨h1, h2, h3, h4, h5, h6, h7⟩, h8, h9, h10⟩ := hs
    have e : nextEdge s = idleEdge := by simp [nextEdge, h7]
    have ec : (onEdge s).c = unitOn 1 1 0 0 := h2
    have ho : (incAll (indices Config.hw (onEdge s).c (itemBytes 0 [])) (onEdge s).cnt) = ([(0, 1)], false) := by
      rw [ec, hi, show (onEdge s).cnt = [] from h3]; decide
    have hst := step_of_effect hr d2 ⟨accepts_of_c h2, rfl⟩
    refine ⟨_, ⟨.insert _ _ 0 [] _ _ _ h1 hr d2 (Nat.zero_le _) hst ?_, h2, ?_, ?_, ?_, ?_, ?_⟩, rfl, h10⟩
    · show ((onEdge s).ssat || _) = false
      rw [ho, show (onEdge s).ssat = false from h4]; rfl
    · show (incAll _ _).1 = _
      rw [ho]
    · show ((onEdge s).ssat || _) = false
      rw [ho, show (onEdge s).ssat = false from h4]; rfl
    · show stillHeld s (nextEdge s) = none
      simp [e, stillHeld, idleEdge]
    · show s.tick + 1 = _
      rw [h6]
    · show s.edges.tail = _
      rw [h7]; rfl
  obtain ⟨s, hs⟩ := k2 [idleEdge]
  have hr := holds_runs hs
  have hst := step_of_effect hr d3 ⟨accepts_of_c hs.1.2.1, rfl⟩
  exact ⟨s, _, hs.1.1, hn, hs.2.2.1, .remove _ _ 0 [] _ _ _ hs.1.1 hr d3 (Nat.zero_le _) hn hst⟩

theorem test_witness_QueriesArePure : (∃ t, exec (.qryB 0 []) idle = .next t) ∧ (∃ t, exec (.qryC 0 []) idle = .next t) ∧
    (∃ t, exec .statB idle = .next t) ∧ ∃ t, exec .statC idle = .next t :=
  ⟨⟨_, rfl⟩, ⟨_, rfl⟩, ⟨_, rfl⟩, _, rfl⟩

theorem test_witness_IndicesAreInRange : 1 ≤ ((unitOn 1 1 0 0).m).toNat ∧ 0 < ((unitOn 1 1 0 0).k).toNat ∧
    1 ≤ ((unitOn 0xffffffff 255 0 0).m).toNat := by decide

/-- The least sequence, and the longest over the most slots. -/
theorem test_witness_HardwareIndexerIsTheFormula : 1 ≤ 1 ∧ (1 ≤ (1 : BitVec 32).toNat ∧ 1 ≤ (1 : BitVec 8).toNat) ∧
    1 ≤ (0xffffffff : BitVec 32).toNat ∧ 1 ≤ (255 : BitVec 8).toNat := by decide

/-- The bounds, and each kind of request. -/
theorem test_witness_IndexerServesTheScan : (1 ≤ (1 : BitVec 32).toNat ∧ 1 ≤ (1 : BitVec 8).toNat) ∧
    ∃ i : IndexerIn, (i.start = true ∧ i.abort = true) ∧ ({ i with start := false }).abort = true ∧
      ({ i with start := false, abort := false, next := true }).next = true ∧
      ({ i with start := false, abort := false, next := false }).next = false :=
  ⟨by decide, { start := true, h1 := 0, h2 := 0, m := 1, k := 1, next := false, abort := true }, by decide⟩

theorem test_witness_SlotOperationsActOnOneSlot :
    Memory.wf ([] : Memory 1) = true ∧ Memory.wf ([(0, 15), (2, 1)] : Memory 4) = true := by decide

theorem test_witness_ResetEdgeUnconstructs :
    (nextEdge { small [] [] with edges := [{ rst := true, cmdValid := true, cmdData := 0, rspReady := true }] }).rst = true :=
  rfl

/-- With a word offered and with a response waiting. -/
theorem test_witness_HandshakeTransfers :
    ((nextEdge offering).rst = false ∧ hostBreach offering (nextEdge offering) = false ∧ readyCommand offering = none ∧
      (nextEdge offering).rspReady = false) ∧
    ∃ s : State, (nextEdge s).rst = false ∧ hostBreach s (nextEdge s) = false ∧ readyCommand s = none ∧
      (nextEdge s).rspReady = true ∧ s.rsp ≠ none :=
  ⟨by decide, { idle with rsp := some 0x0, edges := [{ idleEdge with rspReady := true }] }, by decide⟩

/-- A word withdrawn, and one changed. -/
theorem test_witness_HostBreachIsRefused :
    ({ idle with held := some 0x1 }.held = some 0x1 ∧ (nextEdge { idle with held := some 0x1 }).rst = false ∧
      (nextEdge { idle with held := some 0x1 }).cmdValid = false) ∧
    ({ offering with held := some 0x1 }.held = some 0x1 ∧ (nextEdge { offering with held := some 0x1 }).rst = false ∧
      (nextEdge { offering with held := some 0x1 }).cmdData ≠ 0x1) := by decide

theorem test_witness_IdleCoreIsReady : Machine.Inv (small [] []) ∧ (small [] []).front = none ∧ (small [] []).rsp = none ∧
    Machine.Inv (withCommand (small [] []) 0x6000000000000000 []) ∧
    frontComplete (withCommand (small [] []) 0x6000000000000000 []).front = true :=
  ⟨inv_small, rfl, rfl, inv_withCommand _ (by decide), rfl⟩

/-- A complete command, the core busy for one edge more, and a host that presents the next header meanwhile. -/
theorem test_witness_EveryCommandEnds : ∃ s p, Machine.Inv s ∧ s.front = some p ∧ p.owed = 0 ∧ s.rsp = none ∧
    HostKeeps (s.stall + 1) s ∧ s.stall = 1 ∧ (nextEdge s).cmdValid = true := by
  obtain ⟨h1, h2, h3, h4, h5, h6, -, h8, h9⟩ := inv_withCommand 0x6000000000000000 (by decide)
  refine ⟨{ withCommand (small [] []) 0x6000000000000000 [] with
      edges := [{ idleEdge with cmdValid := true, cmdData := 0x1 }, { idleEdge with cmdValid := true, cmdData := 0x1 }]
      stall := 1 }, _,
    ⟨h1, h2, h3, h4, h5, h6, fun h => (nomatch h), h8, h9⟩, rfl, rfl, rfl, ⟨rfl, rfl, fun t ht => ?_⟩, rfl, rfl⟩
  cases ht
  exact ⟨rfl, rfl, fun _ _ => trivial⟩

theorem test_witness_CommandsDependOnTheArchitecture :
    ArchEq idle { idle with tick := 5, taken := [0x1], stall := 3 } ∧ ∃ t, exec .statB idle = .next t :=
  ⟨⟨rfl, rfl, rfl, rfl, rfl, rfl⟩, _, rfl⟩

/-- Two unconstructed units B of different contents. -/
theorem test_witness_UnconstructedContentsAreUnobservable :
    Machine.Inv idle ∧ Machine.Inv { idle with b := { noUnit with m := 7 } } ∧
    ObsEq idle { idle with b := { noUnit with m := 7 } } ∧ ∃ t, step idle = .next t := by
  have inv : ∀ m, Machine.Inv { idle with b := { noUnit with m := m } } := fun m =>
    ⟨fun h => (nomatch h), fun h => (nomatch h), ⟨rfl, fun _ h => (nomatch h)⟩, ⟨rfl, fun _ h => (nomatch h)⟩,
      fun _ => ⟨rfl, rfl⟩, fun _ h => (nomatch h), fun _ => rfl, fun _ h => (nomatch h), fun _ h => (nomatch h)⟩
  exact ⟨inv 0, inv 7, ⟨rfl, rfl, fun h => (nomatch h), fun h => (nomatch h), rfl, rfl, rfl, rfl, rfl, rfl, rfl, rfl, rfl⟩,
    _, rfl⟩

theorem test_witness_StepKeepsTheInvariant : Machine.Inv (small [] []) ∧ ∃ t, step (small [] []) = .next t :=
  ⟨inv_small, _, rfl⟩

theorem test_witness_InvariantStatesDoNotFault : Machine.Inv (small [] []) ∧
    Machine.Inv (withCommand (small [] []) 0x0 []) := ⟨inv_small, inv_withCommand _ (by decide)⟩

/-- The rates 0 and 1, a NaN, and a rate of the domain. -/
theorem test_witness_SizingFails : (∀ p, some (0 : ℝ) = some p → p ≤ 0 ∨ 1 ≤ p) ∧
    (∀ p, some (1 : ℝ) = some p → p ≤ 0 ∨ 1 ≤ p) ∧ (∀ p : ℝ, none = some p → p ≤ 0 ∨ 1 ≤ p) ∧
    (0 : ℝ) < 1 / 2 ∧ (1 / 2 : ℝ) < 1 :=
  ⟨fun p h => by cases h; exact .inl le_rfl, fun p h => by cases h; exact .inr le_rfl, fun p h => (nomatch h), by norm_num,
    by norm_num⟩

theorem test_witness_SizingReturnsTheFormulas : (0 : ℝ) < 1 / 2 ∧ (1 / 2 : ℝ) < 1 ∧ 1 ≤ 1 := by norm_num

theorem test_witness_SizingIsMonotone : (0 : ℝ) < 1 / 100 ∧ (1 / 100 : ℝ) ≤ 1 / 2 ∧ (1 / 2 : ℝ) < 1 ∧ 1 ≤ 1 := by norm_num

/-- Both sides of each bound. -/
theorem test_witness_WithSizeIssuesTheCommand :
    4294967295 < 4294967296 ∧ 255 < 256 ∧ 4294967295 ≤ 4294967295 ∧ 255 ≤ 255 := by decide

end Sys2Proof.Tests
end

/-! SUPPORT. Proofs of the statements about the state: who writes a register or a slot (spec/10_state.md R20, R26, R30),
the invariant (R23, R24, R28, R29, R33, R51) and what no host can observe (R22, R36). -/

namespace Sys2Proof.Machine

/-! ### What an effect can do to each unit -/

/-- All a command's effect can do to the registers and the array of unit B. -/
theorem Effect.unitB {i : Instr} {s t : State} (h : Effect i s t) :
    (t.b = s.b ∧ t.arr = s.arr) ∨
    (∃ k m x y, i = .consB k m x y ∧ (s.b.constr = false ∧ m ≠ 0 ∧ k ≠ 0 ∧ m.toNat ≤ Config.hw.mMaxB) ∧
      t.b = { constr := true, m := m, k := k, seedA := x, seedB := y } ∧ t.arr = Memory.clear m.toNat s.arr) ∨
    (i = .dstrB ∧ t.b = { s.b with constr := false } ∧ t.arr = s.arr) ∨
    ∃ len p, i = .insB len p ∧ Accepts .B len s ∧ t.b = s.b ∧
      t.arr = setBits (indices Config.hw s.b (itemBytes len p)) s.arr := by
  cases i with
  | consB k m x y => obtain ⟨hc, rfl⟩ := h; exact .inr (.inl ⟨k, m, x, y, rfl, hc, rfl, rfl⟩)
  | dstrB => obtain ⟨-, rfl⟩ := h; exact .inr (.inr (.inl ⟨rfl, rfl, rfl⟩))
  | insB len p => obtain ⟨ha, rfl⟩ := h; exact .inr (.inr (.inr ⟨len, p, rfl, ha, rfl, rfl⟩))
  | remB => exact h.elim
  | statB | statC => obtain rfl := h; exact .inl ⟨rfl, rfl⟩
  | _ => obtain ⟨-, rfl⟩ := h; exact .inl ⟨rfl, rfl⟩

/-- All a command's effect can do to the registers, the sticky flags and the array of unit C. -/
theorem Effect.unitC {i : Instr} {s t : State} (h : Effect i s t) :
    (t.c = s.c ∧ t.cnt = s.cnt ∧ t.ssat = s.ssat ∧ t.sunf = s.sunf) ∨
    (∃ k m x y, i = .consC k m x y ∧ (s.c.constr = false ∧ m ≠ 0 ∧ k ≠ 0 ∧ m.toNat ≤ Config.hw.mMaxC) ∧
      t.c = { constr := true, m := m, k := k, seedA := x, seedB := y } ∧ t.cnt = Memory.clear m.toNat s.cnt) ∨
    (i = .dstrC ∧ t.c = { s.c with constr := false } ∧ t.cnt = s.cnt ∧ t.ssat = false ∧ t.sunf = false) ∨
    (∃ len p, i = .insC len p ∧ Accepts .C len s ∧ t.c = s.c ∧
      t.cnt = (incAll (indices Config.hw s.c (itemBytes len p)) s.cnt).1) ∨
    ∃ len p, i = .remC len p ∧ Accepts .C len s ∧ t.c = s.c ∧
      t.cnt = (decAll (indices Config.hw s.c (itemBytes len p)) s.cnt).1 := by
  cases i with
  | consC k m x y => obtain ⟨hc, rfl⟩ := h; exact .inr (.inl ⟨k, m, x, y, rfl, hc, rfl, rfl⟩)
  | dstrC => obtain ⟨-, rfl⟩ := h; exact .inr (.inr (.inl ⟨rfl, rfl, rfl, rfl, rfl⟩))
  | insC len p => obtain ⟨ha, rfl⟩ := h; exact .inr (.inr (.inr (.inl ⟨len, p, rfl, ha, rfl, rfl⟩)))
  | remC len p => obtain ⟨ha, rfl⟩ := h; exact .inr (.inr (.inr (.inr ⟨len, p, rfl, ha, rfl, rfl⟩)))
  | remB => exact h.elim
  | statB | statC => obtain rfl := h; exact .inl ⟨rfl, rfl, rfl, rfl⟩
  | _ => obtain ⟨-, rfl⟩ := h; exact .inl ⟨rfl, rfl, rfl, rfl⟩

/-- No command's effect touches the ports. -/
theorem Effect.ports {i : Instr} {s t : State} (h : Effect i s t) : PortsEq s t := by
  cases i with
  | remB => exact h.elim
  | statB | statC => obtain rfl := h; exact ⟨rfl, rfl, rfl, rfl, rfl, rfl⟩
  | _ => obtain ⟨-, rfl⟩ := h; exact ⟨rfl, rfl, rfl, rfl, rfl, rfl⟩

/-- An effect of unit C leaves unit B (10_state R20). -/
theorem Effect.frameB {i : Instr} {s t : State} (hu : (opAndUnit i).2 = .C) (h : Effect i s t) :
    t.b = s.b ∧ t.arr = s.arr := by
  rcases h.unitB with h | ⟨_, _, _, _, rfl, -⟩ | ⟨rfl, -⟩ | ⟨_, _, rfl, -⟩
  · exact h
  · cases hu
  · cases hu
  · cases hu

/-- An effect of unit B leaves unit C (10_state R20). -/
theorem Effect.frameC {i : Instr} {s t : State} (hu : (opAndUnit i).2 = .B) (h : Effect i s t) :
    t.c = s.c ∧ t.cnt = s.cnt ∧ t.ssat = s.ssat ∧ t.sunf = s.sunf := by
  rcases h.unitC with h | ⟨_, _, _, _, rfl, -⟩ | ⟨rfl, -⟩ | ⟨_, _, rfl, -⟩ | ⟨_, _, rfl, -⟩
  · exact h
  · cases hu
  · cases hu
  · cases hu
  · cases hu

/-! ### What a command and a step can do to the units -/

/-- A command that answers changes of the ports the response alone, and its response is one the core may emit. -/
theorem exec_ports {i : Instr} {s t : State} (h : exec i s = .next t) :
    PortsEq s t ∧ ∃ r, t.rsp = some r ∧ ResponseOk r := by
  rcases exec_cases h with ⟨e, rfl⟩ | ⟨t', he, rfl⟩
  · exact ⟨⟨rfl, rfl, rfl, rfl, rfl, rfl⟩, _, rfl, responseOk_error _ _ e⟩
  · obtain ⟨-, -, hcode⟩ := successResponse_fields i s
    exact ⟨he.ports, _, rfl, responseOk_success hcode⟩

/-- A command of unit C leaves unit B. -/
theorem exec_frameB {i : Instr} {s t : State} (hu : (opAndUnit i).2 = .C) (h : exec i s = .next t) :
    t.b = s.b ∧ t.arr = s.arr ∧ PortsEq s t := by
  have hp := (exec_ports h).1
  rcases exec_cases h with ⟨e, rfl⟩ | ⟨t', he, rfl⟩
  · exact ⟨rfl, rfl, hp⟩
  · obtain ⟨hb, harr⟩ := he.frameB hu
    exact ⟨hb, harr, hp⟩

/-- A command of unit B leaves unit C. -/
theorem exec_frameC {i : Instr} {s t : State} (hu : (opAndUnit i).2 = .B) (h : exec i s = .next t) :
    t.c = s.c ∧ t.cnt = s.cnt ∧ t.ssat = s.ssat ∧ t.sunf = s.sunf ∧ PortsEq s t := by
  have hp := (exec_ports h).1
  rcases exec_cases h with ⟨e, rfl⟩ | ⟨t', he, rfl⟩
  · exact ⟨rfl, rfl, rfl, rfl, hp⟩
  · obtain ⟨hc, hcnt, hsat, hunf⟩ := he.frameC hu
    exact ⟨hc, hcnt, hsat, hunf, hp⟩

/-- All a step can do to the architectural state: a reset, nothing, or the effect of the command it runs. -/
theorem step_arch_cases {s t : State} (h : step s = .next t) :
    t = resetEdge s ∨ ArchEq s t ∨
    ∃ hd payload i t', Runs s hd payload ∧ decode hd payload = .ok i ∧ Effect i (onEdge s) t' ∧ ArchEq t' t := by
  rcases step_cases h with ⟨-, rfl⟩ | ⟨-, -, -, rfl⟩ | ⟨hd, p, hr, ⟨i, hdec, hex⟩ | ⟨d, e, -, -, rfl⟩⟩
  · exact .inl rfl
  · exact .inr (.inl ⟨rfl, rfl, rfl, rfl, rfl, rfl⟩)
  · rcases exec_cases hex with ⟨e, rfl⟩ | ⟨t', he, rfl⟩
    · exact .inr (.inl ⟨rfl, rfl, rfl, rfl, rfl, rfl⟩)
    · exact .inr (.inr ⟨hd, p, i, t', hr, hdec, he, rfl, rfl, rfl, rfl, rfl, rfl⟩)
  · exact .inr (.inl ⟨rfl, rfl, rfl, rfl, rfl, rfl⟩)

/-! ### The slots a command changes (10_state R30) -/

/-- A slot of `B.ARR` that an effect changed: `CONS.B` cleared it, or `INS.B` set it. -/
theorem Effect.arr_changed {i : Instr} {s t : State} (h : Effect i s t) {j : Nat}
    (hj : Memory.read t.arr j ≠ Memory.read s.arr j) :
    (∃ k m x y, i = .consB k m x y ∧ Memory.read t.arr j = 0) ∨
      ∃ len p, i = .insB len p ∧ Memory.read t.arr j = 1 := by
  rcases h.unitB with ⟨-, ha⟩ | ⟨k, m, x, y, rfl, -, -, ha⟩ | ⟨-, -, ha⟩ | ⟨len, p, rfl, -, -, ha⟩
  · exact absurd (by rw [ha]) hj
  · rw [ha, Memory.read_clear] at hj ⊢
    by_cases hlt : j < m.toNat
    · exact .inl ⟨k, m, x, y, rfl, if_pos hlt⟩
    · exact absurd (if_neg hlt) hj
  · exact absurd (by rw [ha]) hj
  · rw [ha, read_setBits] at hj ⊢
    by_cases hmem : j ∈ indices Config.hw s.b (itemBytes len p)
    · exact .inr ⟨len, p, rfl, if_pos hmem⟩
    · exact absurd (if_neg hmem) hj

/-- A slot of `C.CNT` that an effect changed: `CONS.C` cleared it, `INS.C` raised it, or `REM.C` lowered it. -/
theorem Effect.cnt_changed {i : Instr} {s t : State} (h : Effect i s t) (hwf : Memory.wf s.cnt = true) {j : Nat}
    (hj : Memory.read t.cnt j ≠ Memory.read s.cnt j) :
    (∃ k m x y, i = .consC k m x y ∧ Memory.read t.cnt j = 0) ∨
    (∃ len p, i = .insC len p ∧ (Memory.read s.cnt j).toNat < (Memory.read t.cnt j).toNat ∧
      (Memory.read t.cnt j).toNat ≤ 15) ∨
    ∃ len p, i = .remC len p ∧ (Memory.read t.cnt j).toNat < (Memory.read s.cnt j).toNat := by
  have hne : (Memory.read t.cnt j).toNat ≠ (Memory.read s.cnt j).toNat := fun e => hj (BitVec.eq_of_toNat_eq e)
  rcases h.unitC with ⟨-, ha, -⟩ | ⟨k, m, x, y, rfl, -, -, ha⟩ | ⟨-, -, ha, -⟩ | ⟨len, p, rfl, -, -, ha⟩ |
    ⟨len, p, rfl, -, -, ha⟩
  · exact absurd (by rw [ha]) hj
  · rw [ha, Memory.read_clear] at hj ⊢
    by_cases hlt : j < m.toNat
    · exact .inl ⟨k, m, x, y, rfl, if_pos hlt⟩
    · exact absurd (if_neg hlt) hj
  · exact absurd (by rw [ha]) hj
  · refine .inr (.inl ⟨len, p, rfl, ?_⟩)
    have hlt := (Memory.read s.cnt j).isLt
    rw [ha, read_incAll] at hne ⊢
    omega
  · refine .inr (.inr ⟨len, p, rfl, ?_⟩)
    rw [ha, read_decAll j _ hwf] at hne ⊢
    omega

/-! ### Placed and reset states -/

/-- A placed command runs at the next step (log entry 7). -/
theorem runs_withCommand (s : State) (h : Word) (payload : List Word) : Runs (withCommand s h payload) h payload :=
  ⟨rfl, rfl, readyCommand_eq_some.2 ⟨rfl, rfl, rfl⟩⟩

theorem decode_of_decodeTableWord {nbits w : Nat} {i : Instr} (h : decodeTableWord nbits w = some i) :
    decode (tableHeader nbits w) (tablePayload nbits w) = .ok i := by
  change (decode (tableHeader nbits w) (tablePayload nbits w)).toOption = some i at h
  cases hd : decode (tableHeader nbits w) (tablePayload nbits w) with
  | ok i' => rw [hd] at h; cases h; rfl
  | error d => rw [hd] at h; cases h

theorem arrayOk_ofSlots {w : Nat} (n : Nat) (f : Nat → BitVec w) : ArrayOk n (Memory.ofSlots n f) :=
  ⟨Memory.ofSlots_wf n f, fun _ he => Memory.mem_ofSlots he⟩

/-! ### The invariant, unit by unit -/

/-- The part of the invariant about unit B (10_state R23, R24, R28). -/
def UnitBOk (s : State) : Prop := UnitOk .B s.b ∧ ArrayOk Config.hw.mMaxB s.arr

/-- The part of the invariant about unit C (10_state R23, R24, R29, R31). -/
def UnitCOk (s : State) : Prop :=
  UnitOk .C s.c ∧ ArrayOk Config.hw.mMaxC s.cnt ∧ (s.c.constr = false → s.ssat = false ∧ s.sunf = false)

/-- The part of the invariant about the front end and the responses (10_state R33, 30_encoding R80). -/
def PortsOk (s : State) : Prop :=
  FrontOk s.front ∧ (s.front = none → s.stall = 0) ∧ (∀ p, s.rsp = some p → ResponseOk p) ∧ ∀ p ∈ s.taken, ResponseOk p

theorem inv_iff {s : State} : Inv s ↔ UnitBOk s ∧ UnitCOk s ∧ PortsOk s := by
  unfold Inv UnitBOk UnitCOk PortsOk
  tauto

theorem unitOk_of_constr_false {u : UnitId} {r : UnitRegs} (h : r.constr = false) : UnitOk u r :=
  fun hc => absurd hc (by simp [h])

/-- A unit as `CONS.u` leaves it. -/
theorem unitOk_constructed {u : UnitId} {k : BitVec 8} {m : BitVec 32} {x y : Word} (hm : m ≠ 0) (hk : k ≠ 0)
    (hmax : m.toNat ≤ Config.hw.mMax u) : UnitOk u { constr := true, m := m, k := k, seedA := x, seedB := y } :=
  fun _ => ⟨by bv_omega, hmax, by bv_omega⟩

section
variable {w n : Nat} {a : Memory w}

theorem ArrayOk.write (h : ArrayOk n a) {j : Nat} (hj : j < n) (v : BitVec w) : ArrayOk n (Memory.write a j v) :=
  ⟨Memory.write_wf h.1 j v, fun e he => (Memory.mem_write he).elim (h.2 e) fun hej => hej ▸ hj⟩

theorem ArrayOk.clear (h : ArrayOk n a) (m : Nat) : ArrayOk n (Memory.clear m a) :=
  ⟨Memory.clear_wf h.1 m, fun e he => h.2 e (List.mem_of_mem_filter he)⟩
end

theorem ArrayOk.setBits {n : Nat} {a : Memory 1} {js : List Nat} (h : ArrayOk n a) (hjs : ∀ j ∈ js, j < n) :
    ArrayOk n (setBits js a) :=
  setBits_induct (fun j hj _ ha => ha.write (hjs j hj) 1) h

theorem ArrayOk.incAll {n : Nat} {a : Memory 4} {js : List Nat} (h : ArrayOk n a) (hjs : ∀ j ∈ js, j < n) :
    ArrayOk n (incAll js a).1 :=
  incAll_induct (fun j hj _ v ha => ha.write (hjs j hj) v) h

theorem ArrayOk.decAll {n : Nat} {a : Memory 4} {js : List Nat} (h : ArrayOk n a) (hjs : ∀ j ∈ js, j < n) :
    ArrayOk n (decAll js a).1 :=
  decAll_induct (fun j hj _ v ha => ha.write (hjs j hj) v) h

theorem Effect.unitBOk {i : Instr} {s t : State} (h : Effect i s t) (hs : UnitBOk s) : UnitBOk t := by
  obtain ⟨hr, ha⟩ := hs
  unfold UnitBOk
  rcases h.unitB with ⟨hb, harr⟩ | ⟨k, m, x, y, -, ⟨-, hm, hk, hmax⟩, hb, harr⟩ | ⟨-, hb, harr⟩ |
    ⟨len, p, -, hacc, hb, harr⟩
  · rw [hb, harr]; exact ⟨hr, ha⟩
  · rw [hb, harr]; exact ⟨unitOk_constructed hm hk hmax, ha.clear _⟩
  · rw [hb, harr]; exact ⟨unitOk_of_constr_false rfl, ha⟩
  · rw [hb, harr]; exact ⟨hr, ha.setBits fun j hj => (hacc.index_lt hj).2⟩

/-- An effect after which unit C is unconstructed leaves its sticky flags 0 where they were (10_state R31). -/
theorem Effect.sticky {i : Instr} {s t : State} (h : Effect i s t)
    (hs : s.c.constr = false → s.ssat = false ∧ s.sunf = false) (ht : t.c.constr = false) :
    t.ssat = false ∧ t.sunf = false := by
  rcases h.unitC with ⟨hc, -, hsat, hunf⟩ | ⟨k, m, x, y, -, -, hc, -⟩ | ⟨-, -, -, hflags⟩ | ⟨_, _, -, ⟨hcon, -⟩, hc, -⟩ |
    ⟨_, _, -, ⟨hcon, -⟩, hc, -⟩
  · rw [hsat, hunf]; exact hs (hc ▸ ht)
  · rw [hc] at ht; cases ht
  · exact hflags
  · rw [hc, ← State.regs_C, hcon] at ht; cases ht
  · rw [hc, ← State.regs_C, hcon] at ht; cases ht

theorem Effect.unitCOk {i : Instr} {s t : State} (h : Effect i s t) (hs : UnitCOk s) : UnitCOk t := by
  obtain ⟨hr, ha, hf⟩ := hs
  refine and_assoc.1 ⟨?_, h.sticky hf⟩
  rcases h.unitC with ⟨hc, hcnt, -⟩ | ⟨k, m, x, y, -, ⟨-, hm, hk, hmax⟩, hc, hcnt⟩ | ⟨-, hc, hcnt, -⟩ |
    ⟨len, p, -, hacc, hc, hcnt⟩ | ⟨len, p, -, hacc, hc, hcnt⟩
  · rw [hc, hcnt]; exact ⟨hr, ha⟩
  · rw [hc, hcnt]; exact ⟨unitOk_constructed hm hk hmax, ha.clear _⟩
  · rw [hc, hcnt]; exact ⟨unitOk_of_constr_false rfl, ha⟩
  · rw [hc, hcnt]; exact ⟨hr, ha.incAll fun j hj => (hacc.index_lt hj).2⟩
  · rw [hc, hcnt]; exact ⟨hr, ha.decAll fun j hj => (hacc.index_lt hj).2⟩

theorem step_unitBOk {s t : State} (h : step s = .next t) (hs : UnitBOk s) : UnitBOk t := by
  rcases step_arch_cases h with rfl | ⟨hb, -, -, -, harr, -⟩ | ⟨_, _, i, t', -, -, he, hb, -, -, -, harr, -⟩
  · exact ⟨unitOk_of_constr_false rfl, hs.2⟩
  · unfold UnitBOk; rw [← hb, ← harr]; exact hs
  · unfold UnitBOk; rw [← hb, ← harr]; exact he.unitBOk hs

theorem step_unitCOk {s t : State} (h : step s = .next t) (hs : UnitCOk s) : UnitCOk t := by
  rcases step_arch_cases h with rfl | ⟨-, hc, hsat, hunf, -, hcnt⟩ | ⟨_, _, i, t', -, -, he, -, hc, hsat, hunf, -, hcnt⟩
  · exact ⟨unitOk_of_constr_false rfl, hs.2.1, fun _ => ⟨rfl, rfl⟩⟩
  · unfold UnitCOk; rw [← hc, ← hsat, ← hunf, ← hcnt]; exact hs
  · unfold UnitCOk; rw [← hc, ← hsat, ← hunf, ← hcnt]; exact he.unitCOk hs

/-! ### The invariant of the ports -/

theorem frontOk_none : FrontOk none := fun _ h => nomatch h

/-- The front end keeps its count of payload words over every word it takes (10_state R33, 30_encoding R72). -/
theorem FrontOk.acceptWord {f : Option PartialCommand} (hf : FrontOk f) (hc : frontComplete f = false) (w : Word) :
    FrontOk (some (acceptWord Config.hw w f)) := by
  rintro _ ⟨⟩
  cases f with
  | none => exact ⟨le_rfl, by simp [Machine.acceptWord, acceptHeader]⟩
  | some p =>
    obtain ⟨hle, hlen⟩ := hf p rfl
    have howed : p.owed ≠ 0 := by simpa [frontComplete] using hc
    refine ⟨by simp only [Machine.acceptWord, acceptPayload]; omega, ?_⟩
    simp only [Machine.acceptWord, acceptPayload]
    split
    · rw [List.length_append, List.length_singleton]; omega
    · omega

theorem frontComplete_of_wordTransfers {s : State} {e : Edge} (h : wordTransfers s e = true) :
    frontComplete s.front = false := by
  unfold wordTransfers cmdReady at h
  simp only [Bool.and_eq_true, Bool.not_eq_true'] at h
  obtain ⟨-, ⟨-, hc⟩, -⟩ := h
  exact hc

theorem PortsOk.transfer {s : State} (hs : PortsOk s) (e : Edge) : PortsOk (transfer Config.hw s e) := by
  obtain ⟨hfront, hstall, hrsp, htaken⟩ := hs
  unfold PortsOk
  rw [transfer_front, transfer_stall, transfer_rsp, transfer_taken]
  refine ⟨?_, ?_, ?_, ?_⟩
  · split
    · next hw => exact hfront.acceptWord (frontComplete_of_wordTransfers hw) _
    · exact hfront
  · intro hnone
    split
    · next hw => rw [if_pos hw] at hnone; cases hnone
    · next hw => rw [if_neg hw] at hnone; rw [hstall hnone]
  · split
    · exact fun _ h => nomatch h
    · exact hrsp
  · split
    · intro p hp
      exact (List.mem_append.1 hp).elim (htaken p) fun h => hrsp p (Option.mem_toList.1 h)
    · exact htaken

/-- The ports after a command, which was executed with no work left: the response is new, the front end is empty. -/
theorem portsOk_of_answered {s t : State} {h : Word} {payload : List Word} {r : Word} (hr : Runs s h payload)
    (hs : PortsOk s) (hp : PortsEq (onEdge s) t) (hrsp : t.rsp = some r) (hok : ResponseOk r) : PortsOk t := by
  obtain ⟨-, -, hready⟩ := hr
  obtain ⟨-, hstall, -⟩ := readyCommand_eq_some.1 hready
  obtain ⟨-, -, -, htakenOk⟩ := hs
  obtain ⟨hfront, hst, -, -, htaken, -⟩ := hp
  refine ⟨hfront ▸ frontOk_none, fun _ => hst ▸ hstall, fun p hp => ?_, htaken ▸ htakenOk⟩
  rw [hrsp] at hp
  cases hp
  exact hok

theorem step_portsOk {s t : State} (h : step s = .next t) (hs : PortsOk s) : PortsOk t := by
  rcases step_cases h with ⟨-, rfl⟩ | ⟨-, -, -, rfl⟩ | ⟨hd, p, hr, ⟨i, -, hex⟩ | ⟨d, e, -, -, rfl⟩⟩
  · obtain ⟨-, -, -, htaken⟩ := hs
    exact ⟨frontOk_none, fun _ => rfl, fun _ h => (nomatch h), htaken⟩
  · exact hs.transfer _
  · obtain ⟨hp, r, hrsp, hok⟩ := exec_ports hex
    exact portsOk_of_answered hr hs hp hrsp hok
  · exact portsOk_of_answered hr hs ⟨rfl, rfl, rfl, rfl, rfl, rfl⟩ rfl (responseOk_error _ _ e)

/-! ### What no host can observe of one unit (10_state R22, R36) -/

/-- Two units no host can tell apart: both unconstructed, or of the same registers and of the same slots below `M`. -/
def UnitObsEq {w : Nat} (r r' : UnitRegs) (a a' : Memory w) : Prop :=
  r.constr = r'.constr ∧ (r.constr = true → r = r' ∧ ∀ j < r.m.toNat, Memory.read a j = Memory.read a' j)

theorem obsEq_iff {s t : State} :
    ObsEq s t ↔ UnitObsEq s.b t.b s.arr t.arr ∧ UnitObsEq s.c t.c s.cnt t.cnt ∧
      (s.ssat = t.ssat ∧ s.sunf = t.sunf) ∧ PortsEq s t ∧ s.rsp = t.rsp := by
  unfold ObsEq UnitObsEq PortsEq
  tauto

section
variable {w : Nat} {r r' : UnitRegs} {a a' : Memory w}

theorem unitObsEq_of_constr_false (h : r.constr = false) (h' : r'.constr = false) : UnitObsEq r r' a a' :=
  ⟨h.trans h'.symm, fun hc => absurd hc (by simp [h])⟩

/-- `CONS.u` clears every slot a host can then reach, so nothing of what stood there is left. -/
theorem unitObsEq_clear (r : UnitRegs) (a a' : Memory w) :
    UnitObsEq r r (Memory.clear r.m.toNat a) (Memory.clear r.m.toNat a') :=
  ⟨rfl, fun _ => ⟨rfl, fun j hj => by rw [Memory.read_clear, Memory.read_clear, if_pos hj, if_pos hj]⟩⟩

/-- New arrays that read alike below `M` where the old ones did. -/
theorem UnitObsEq.of_read {v : Nat} {b b' : Memory v} (h : UnitObsEq r r' a a')
    (hread : ∀ j, Memory.read a j = Memory.read a' j → Memory.read b j = Memory.read b' j) : UnitObsEq r r' b b' :=
  ⟨h.1, fun hc => ⟨(h.2 hc).1, fun j hj => hread j ((h.2 hc).2 j hj)⟩⟩
end

theorem UnitObsEq.setBits {r r' : UnitRegs} {a a' : Memory 1} (h : UnitObsEq r r' a a') (js : List Nat) :
    UnitObsEq r r' (setBits js a) (setBits js a') :=
  h.of_read fun j hj => by rw [read_setBits, read_setBits, hj]

theorem UnitObsEq.incAll {r r' : UnitRegs} {a a' : Memory 4} (h : UnitObsEq r r' a a') (js : List Nat) :
    UnitObsEq r r' (incAll js a).1 (incAll js a').1 :=
  h.of_read fun j hj => BitVec.eq_of_toNat_eq (by rw [read_incAll, read_incAll, hj])

theorem UnitObsEq.decAll {r r' : UnitRegs} {a a' : Memory 4} (h : UnitObsEq r r' a a') (ha : Memory.wf a = true)
    (ha' : Memory.wf a' = true) (js : List Nat) : UnitObsEq r r' (decAll js a).1 (decAll js a').1 :=
  h.of_read fun j hj => BitVec.eq_of_toNat_eq (by rw [read_decAll j js ha, read_decAll j js ha', hj])

/-- The saturation flag depends on the visited slots alone. -/
theorem incAll_flag_congr {js : List Nat} {a a' : Memory 4} (h : ∀ j ∈ js, Memory.read a j = Memory.read a' j) :
    (incAll js a).2 = (incAll js a').2 := by
  rw [Bool.eq_iff_iff, incAll_flag, incAll_flag]
  exact exists_congr fun j => and_congr_right fun hj => by rw [h j hj]

/-- The underflow flag depends on the visited slots alone. -/
theorem decAll_flag_congr {js : List Nat} {a a' : Memory 4} (ha : Memory.wf a = true) (ha' : Memory.wf a' = true)
    (h : ∀ j ∈ js, Memory.read a j = Memory.read a' j) : (decAll js a).2 = (decAll js a').2 := by
  rw [Bool.eq_iff_iff, decAll_flag js ha, decAll_flag js ha']
  exact exists_congr fun j => and_congr_right fun hj => by rw [h j hj]

/-! ### What no host can observe of a command -/

/-- Two outcomes no host can tell apart: next states that are, or the same stop. -/
def OutcomeObsEq : Host.Outcome State Fault Refusal → Host.Outcome State Fault Refusal → Prop
  | .next s, .next t => ObsEq s t
  | .fault f, .fault g => f = g
  | .refused f, .refused g => f = g
  | _, _ => False

theorem OutcomeObsEq.next_left {o : Host.Outcome State Fault Refusal} {s : State} (h : OutcomeObsEq (.next s) o) :
    ∃ t, o = .next t ∧ ObsEq s t := by
  cases o with
  | next t => exact ⟨t, rfl, h⟩
  | fault | refused => exact h.elim

theorem respond_obsEq {r r' : Response} {s t : State} (hr : r = r') (h : ObsEq s t) :
    OutcomeObsEq (respond r s) (respond r' t) := by
  obtain ⟨hB, hC, hf, hp, -⟩ := obsEq_iff.1 h
  exact obsEq_iff.2 ⟨hB, hC, hf, hp, by rw [hr]⟩

theorem raise_obsEq {s t : State} (op : BitVec 4) (u : UnitId) (e : ErrorCode) (h : ObsEq s t) :
    OutcomeObsEq (raise op u e s) (raise op u e t) :=
  respond_obsEq rfl h

theorem ObsEq.constr_eq {s t : State} (h : ObsEq s t) (u : UnitId) : (s.regs u).constr = (t.regs u).constr := by
  obtain ⟨hB, hC, -⟩ := obsEq_iff.1 h
  cases u with
  | B => exact hB.1
  | C => exact hC.1

theorem ObsEq.regs_eq {s t : State} (h : ObsEq s t) {u : UnitId} (hc : (s.regs u).constr = true) :
    s.regs u = t.regs u := by
  obtain ⟨hB, hC, -⟩ := obsEq_iff.1 h
  cases u with
  | B => exact (hB.2 hc).1
  | C => exact (hC.2 hc).1

theorem consCheck_congr {s t : State} (h : ObsEq s t) (u : UnitId) (k : BitVec 8) (m : BitVec 32) :
    consCheck Config.hw u k m s = consCheck Config.hw u k m t := by
  unfold consCheck
  rw [h.constr_eq u]

/-- A command on an item is not told apart if its own work on slots below `M` of a constructed unit is not. -/
theorem itemCommand_obsEq {s t : State} (h : ObsEq s t) {op : BitVec 4} {u : UnitId} {len : BitVec 16}
    {payload : List Word} {body body' : List Nat → Host.Outcome State Fault Refusal}
    (hbody : (s.regs u).constr = true → ∀ js : List Nat, (∀ j ∈ js, j < (s.regs u).m.toNat) →
      OutcomeObsEq (body js) (body' js)) :
    OutcomeObsEq (itemCommand Config.hw op u len payload s body) (itemCommand Config.hw op u len payload t body') := by
  unfold itemCommand
  rw [← h.constr_eq u]
  split
  · exact raise_obsEq _ _ _ h
  · split
    · exact raise_obsEq _ _ _ h
    · next hc =>
      have hc : (s.regs u).constr = true := by simpa using hc
      have hsize : sizeOk Config.hw u t = sizeOk Config.hw u s := by unfold sizeOk; rw [h.regs_eq hc]
      rw [hsize, ← h.regs_eq hc]
      split
      · exact rfl
      · next hs =>
        have hm := sizeOk_iff.1 (by simpa using hs)
        exact hbody hc _ fun j hj => lt_of_mem_indices hm.1 hj

theorem execConsB_obsEq {s t : State} (h : ObsEq s t) (k : BitVec 8) (m : BitVec 32) (x y : Word) :
    OutcomeObsEq (execConsB k m x y s) (execConsB k m x y t) := by
  unfold execConsB consB
  rw [← consCheck_congr h]
  split
  · exact raise_obsEq _ _ _ h
  · obtain ⟨-, hC, hf, hp, hr⟩ := obsEq_iff.1 h
    exact respond_obsEq rfl (obsEq_iff.2 ⟨unitObsEq_clear _ _ _, hC, hf, hp, hr⟩)

theorem execConsC_obsEq {s t : State} (h : ObsEq s t) (k : BitVec 8) (m : BitVec 32) (x y : Word) :
    OutcomeObsEq (execConsC k m x y s) (execConsC k m x y t) := by
  unfold execConsC consC
  rw [← consCheck_congr h]
  split
  · exact raise_obsEq _ _ _ h
  · obtain ⟨hB, -, -, hp, hr⟩ := obsEq_iff.1 h
    exact respond_obsEq rfl (obsEq_iff.2 ⟨hB, unitObsEq_clear _ _ _, ⟨rfl, rfl⟩, hp, hr⟩)

theorem execDstrB_obsEq {s t : State} (h : ObsEq s t) : OutcomeObsEq (execDstrB s) (execDstrB t) := by
  obtain ⟨hB, hC, hf, hp, hr⟩ := obsEq_iff.1 h
  unfold execDstrB
  rw [← hB.1]
  split
  · exact respond_obsEq rfl (obsEq_iff.2 ⟨unitObsEq_of_constr_false rfl rfl, hC, hf, hp, hr⟩)
  · exact raise_obsEq _ _ _ h

theorem execDstrC_obsEq {s t : State} (h : ObsEq s t) : OutcomeObsEq (execDstrC s) (execDstrC t) := by
  obtain ⟨hB, hC, -, hp, hr⟩ := obsEq_iff.1 h
  unfold execDstrC
  rw [← hC.1]
  split
  · exact respond_obsEq rfl (obsEq_iff.2 ⟨hB, unitObsEq_of_constr_false rfl rfl, ⟨rfl, rfl⟩, hp, hr⟩)
  · exact raise_obsEq _ _ _ h

theorem execInsB_obsEq {s t : State} (h : ObsEq s t) (len : BitVec 16) (payload : List Word) :
    OutcomeObsEq (execInsB len payload s) (execInsB len payload t) := by
  obtain ⟨hB, hC, hf, hp, hr⟩ := obsEq_iff.1 h
  unfold execInsB insB
  refine itemCommand_obsEq h fun hc js _ => ?_
  have hk : s.b = t.b := h.regs_eq (u := .B) hc
  exact respond_obsEq (by rw [hk]) (obsEq_iff.2 ⟨hB.setBits js, hC, hf, hp, hr⟩)

theorem execQryB_obsEq {s t : State} (h : ObsEq s t) (len : BitVec 16) (payload : List Word) :
    OutcomeObsEq (execQryB len payload s) (execQryB len payload t) := by
  obtain ⟨hB, -⟩ := obsEq_iff.1 h
  unfold execQryB qryB
  refine itemCommand_obsEq h fun hc js hjs => ?_
  have hscan : scan (bitLookup s.arr) js = scan (bitLookup t.arr) js :=
    scan_congr fun j hj => by unfold bitLookup; rw [(hB.2 hc).2 j (hjs j hj)]
  exact respond_obsEq (by rw [hscan]) h

theorem execQryC_obsEq {s t : State} (h : ObsEq s t) (len : BitVec 16) (payload : List Word) :
    OutcomeObsEq (execQryC len payload s) (execQryC len payload t) := by
  obtain ⟨-, hC, -⟩ := obsEq_iff.1 h
  unfold execQryC qryC
  refine itemCommand_obsEq h fun hc js hjs => ?_
  have hscan : scan (cntNonzero s.cnt) js = scan (cntNonzero t.cnt) js :=
    scan_congr fun j hj => by unfold cntNonzero; rw [(hC.2 hc).2 j (hjs j hj)]
  exact respond_obsEq (by rw [hscan]) h

theorem execInsC_obsEq {s t : State} (h : ObsEq s t) (len : BitVec 16) (payload : List Word) :
    OutcomeObsEq (execInsC len payload s) (execInsC len payload t) := by
  obtain ⟨hB, hC, ⟨hsat, hunf⟩, hp, hr⟩ := obsEq_iff.1 h
  unfold execInsC insC
  refine itemCommand_obsEq h fun hc js hjs => ?_
  have hk : s.c = t.c := h.regs_eq (u := .C) hc
  have hflag : (incAll js s.cnt).2 = (incAll js t.cnt).2 := incAll_flag_congr fun j hj => (hC.2 hc).2 j (hjs j hj)
  exact respond_obsEq (by rw [hk, hflag]) <|
    obsEq_iff.2 ⟨hB, hC.incAll js, ⟨by rw [stickySat_ssat, stickySat_ssat, hsat, hflag], hunf⟩, hp, hr⟩

theorem execRemC_obsEq {s t : State} (h : ObsEq s t) (hs : Memory.wf s.cnt = true) (ht : Memory.wf t.cnt = true)
    (len : BitVec 16) (payload : List Word) : OutcomeObsEq (execRemC len payload s) (execRemC len payload t) := by
  obtain ⟨hB, hC, ⟨hsat, hunf⟩, hp, hr⟩ := obsEq_iff.1 h
  unfold execRemC remC
  refine itemCommand_obsEq h fun hc js hjs => ?_
  have hk : s.c = t.c := h.regs_eq (u := .C) hc
  have hflag : (decAll js s.cnt).2 = (decAll js t.cnt).2 :=
    decAll_flag_congr hs ht fun j hj => (hC.2 hc).2 j (hjs j hj)
  exact respond_obsEq (by rw [hk, hflag]) <|
    obsEq_iff.2 ⟨hB, hC.decAll hs ht js, ⟨hsat, by rw [stickyUnf_sunf, stickyUnf_sunf, hunf, hflag]⟩, hp, hr⟩

theorem execStatB_obsEq {s t : State} (h : ObsEq s t) : OutcomeObsEq (execStatB s) (execStatB t) := by
  obtain ⟨hB, -⟩ := obsEq_iff.1 h
  unfold execStatB
  rw [← hB.1]
  split
  · next hc => exact respond_obsEq (by rw [(hB.2 hc).1]) h
  · exact respond_obsEq rfl h

theorem execStatC_obsEq {s t : State} (h : ObsEq s t) : OutcomeObsEq (execStatC s) (execStatC t) := by
  obtain ⟨-, hC, ⟨hsat, hunf⟩, -⟩ := obsEq_iff.1 h
  unfold execStatC
  rw [← hC.1]
  split
  · next hc => exact respond_obsEq (by rw [(hC.2 hc).1, hsat, hunf]) h
  · exact respond_obsEq rfl h

/-- No command tells apart two states that no host can. -/
theorem exec_obsEq {s t : State} (h : ObsEq s t) (hs : Memory.wf s.cnt = true) (ht : Memory.wf t.cnt = true)
    (i : Instr) : OutcomeObsEq (exec i s) (exec i t) := by
  cases i with
  | consB k m x y => exact execConsB_obsEq h k m x y
  | consC k m x y => exact execConsC_obsEq h k m x y
  | dstrB => exact execDstrB_obsEq h
  | dstrC => exact execDstrC_obsEq h
  | insB len p => exact execInsB_obsEq h len p
  | insC len p => exact execInsC_obsEq h len p
  | qryB len p => exact execQryB_obsEq h len p
  | qryC len p => exact execQryC_obsEq h len p
  | remB len p => exact raise_obsEq _ _ _ h
  | remC len p => exact execRemC_obsEq h hs ht len p
  | statB => exact execStatB_obsEq h
  | statC => exact execStatC_obsEq h

theorem answerUndecoded_obsEq {s t : State} (h : ObsEq s t) (hd : Word) (d : DecodeError) :
    OutcomeObsEq (answerUndecoded hd d s) (answerUndecoded hd d t) := by
  cases d with
  | illegalOpcode | reservedField => exact raise_obsEq _ _ _ h
  | payloadCount => exact rfl

/-! ### What no host can observe of a step -/

theorem responseTransfers_congr {s t : State} (hr : s.rsp = t.rsp) (e : Edge) :
    responseTransfers s e = responseTransfers t e := by
  unfold responseTransfers rspValid; rw [hr]

section
variable {s t : State} (hp : PortsEq s t) (hr : s.rsp = t.rsp) (e : Edge)
include hp

theorem nextEdge_congr : nextEdge s = nextEdge t := by
  obtain ⟨-, -, -, hedges, -⟩ := hp
  unfold nextEdge; rw [hedges]

theorem hostBreach_congr : hostBreach s e = hostBreach t e := by
  obtain ⟨-, -, hheld, -⟩ := hp
  unfold hostBreach; rw [hheld]

include hr

theorem readyCommand_congr : readyCommand s = readyCommand t := by
  obtain ⟨hfront, hstall, -⟩ := hp
  unfold readyCommand; rw [hfront, hstall, hr]

theorem wordTransfers_congr : wordTransfers s e = wordTransfers t e := by
  obtain ⟨hfront, hstall, -, -, -, htick⟩ := hp
  unfold wordTransfers cmdReady; rw [hfront, hstall, hr, htick]

theorem stillHeld_congr : stillHeld s e = stillHeld t e := by
  unfold stillHeld; rw [wordTransfers_congr hp hr]

theorem retire_portsEq : PortsEq (retire s e) (retire t e) := by
  have hheld := stillHeld_congr hp hr e
  obtain ⟨-, hstall, -, hedges, htaken, htick⟩ := hp
  exact ⟨rfl, hstall, hheld, congrArg List.tail hedges, htaken, congrArg (· + 1) htick⟩

theorem transfer_portsEq : PortsEq (transfer Config.hw s e) (transfer Config.hw t e) ∧
    (transfer Config.hw s e).rsp = (transfer Config.hw t e).rsp := by
  have hheld := stillHeld_congr hp hr e
  have hw := wordTransfers_congr hp hr e
  have hrt := responseTransfers_congr hr e
  obtain ⟨hfront, hstall, -, hedges, htaken, htick⟩ := hp
  simp only [PortsEq, transfer_front, transfer_stall, transfer_held, transfer_edges, transfer_taken, transfer_tick,
    transfer_rsp, hheld, hw, hrt, hfront, hstall, hedges, htaken, htick, hr, and_self]
end

theorem ObsEq.resetEdge {s t : State} (h : ObsEq s t) : ObsEq (resetEdge s) (resetEdge t) := by
  obtain ⟨-, -, -, ⟨-, -, -, hedges, htaken, htick⟩, -⟩ := obsEq_iff.1 h
  exact obsEq_iff.2 ⟨unitObsEq_of_constr_false rfl rfl, unitObsEq_of_constr_false rfl rfl, ⟨rfl, rfl⟩,
    ⟨rfl, rfl, rfl, congrArg List.tail hedges, htaken, congrArg (· + 1) htick⟩, rfl⟩

theorem ObsEq.transfer {s t : State} (h : ObsEq s t) (e : Edge) :
    ObsEq (transfer Config.hw s e) (transfer Config.hw t e) := by
  obtain ⟨hB, hC, hf, hp, hr⟩ := obsEq_iff.1 h
  exact obsEq_iff.2 ⟨hB, hC, hf, transfer_portsEq hp hr e⟩

theorem ObsEq.retire {s t : State} (h : ObsEq s t) (e : Edge) : ObsEq (retire s e) (retire t e) := by
  obtain ⟨hB, hC, hf, hp, hr⟩ := obsEq_iff.1 h
  exact obsEq_iff.2 ⟨hB, hC, hf, retire_portsEq hp hr e, hr⟩

/-- No step tells apart two states that no host can. -/
theorem step_obsEq {s t : State} (h : ObsEq s t) (hs : Memory.wf s.cnt = true) (ht : Memory.wf t.cnt = true) :
    OutcomeObsEq (step s) (step t) := by
  obtain ⟨-, -, -, hp, hr⟩ := obsEq_iff.1 h
  unfold step
  rw [← nextEdge_congr hp, ← hostBreach_congr hp, ← readyCommand_congr hp hr]
  split
  · exact h.resetEdge
  · split
    · exact rfl
    · split
      · exact h.transfer _
      · split
        · exact exec_obsEq (h.retire _) hs ht _
        · exact answerUndecoded_obsEq (h.retire _) _ _

/-! ### The obligations -/

/-- Settles O49: `OutcomeObsEq` holds between the two steps, so the second answers a next state too. -/
theorem unconstructedContentsAreUnobservable : Obligations.UnconstructedContentsAreUnobservable := by
  intro s t s' hs ht h hstep
  obtain ⟨-, ⟨-, hcs, -⟩, -⟩ := inv_iff.1 hs
  obtain ⟨-, ⟨-, hct, -⟩, -⟩ := inv_iff.1 ht
  have hobs := step_obsEq h hcs.1 hct.1
  rw [hstep] at hobs
  exact hobs.next_left

/-- Settles O50, part by part: the two units and the ports. -/
theorem stepKeepsTheInvariant : Obligations.StepKeepsTheInvariant := by
  intro s t hs h
  obtain ⟨hB, hC, hP⟩ := inv_iff.1 hs
  exact inv_iff.2 ⟨step_unitBOk h hB, step_unitCOk h hC, step_portsOk h hP⟩

/-- Settles O24: of the effects only `CONS.u` writes the parameters. -/
theorem parametersAreImmutable : Obligations.ParametersAreImmutable := by
  intro s t h
  rcases step_arch_cases h with rfl | ⟨hb, hc, -⟩ | ⟨hd, p, i, t', hr, hdec, he, hb, hc, -⟩
  · exact ⟨.inl ⟨rfl, rfl, rfl, rfl⟩, .inl ⟨rfl, rfl, rfl, rfl⟩⟩
  · rw [hb, hc]; exact ⟨.inl ⟨rfl, rfl, rfl, rfl⟩, .inl ⟨rfl, rfl, rfl, rfl⟩⟩
  · rw [← hb, ← hc]
    constructor
    · rcases he.unitB with ⟨hb', -⟩ | ⟨k, m, x, y, rfl, ⟨hcon, -⟩, hb', -⟩ | ⟨-, hb', -⟩ | ⟨_, _, -, -, hb', -⟩
      · rw [hb']; exact .inl ⟨rfl, rfl, rfl, rfl⟩
      · exact .inr ⟨hd, p, k, m, x, y, hr, hdec, hcon, hb'⟩
      · rw [hb']; exact .inl ⟨rfl, rfl, rfl, rfl⟩
      · rw [hb']; exact .inl ⟨rfl, rfl, rfl, rfl⟩
    · rcases he.unitC with ⟨hc', -⟩ | ⟨k, m, x, y, rfl, ⟨hcon, -⟩, hc', -⟩ | ⟨-, hc', -⟩ | ⟨_, _, -, -, hc', -⟩ |
        ⟨_, _, -, -, hc', -⟩
      · rw [hc']; exact .inl ⟨rfl, rfl, rfl, rfl⟩
      · exact .inr ⟨hd, p, k, m, x, y, hr, hdec, hcon, hc'⟩
      · rw [hc']; exact .inl ⟨rfl, rfl, rfl, rfl⟩
      · rw [hc']; exact .inl ⟨rfl, rfl, rfl, rfl⟩
      · rw [hc']; exact .inl ⟨rfl, rfl, rfl, rfl⟩

/-- Settles O25: a changed slot is one that the effect of the command the step ran changed. -/
theorem slotsChangeOnlyByTheirCommands : Obligations.SlotsChangeOnlyByTheirCommands := by
  intro s t hwf h j
  rcases step_arch_cases h with rfl | ⟨-, -, -, -, harr, hcnt⟩ | ⟨hd, p, i, t', hr, hdec, he, -, -, -, -, harr, hcnt⟩
  · exact ⟨fun hj => absurd rfl hj, fun hj => absurd rfl hj⟩
  · rw [harr, hcnt]; exact ⟨fun hj => absurd rfl hj, fun hj => absurd rfl hj⟩
  · rw [← harr, ← hcnt]
    refine ⟨fun hj => ⟨hd, p, hr, ?_⟩, fun hj => ⟨hd, p, hr, ?_⟩⟩
    · rcases he.arr_changed hj with ⟨k, m, x, y, rfl, hv⟩ | ⟨len, q, rfl, hv⟩
      · exact .inl ⟨k, m, x, y, hdec, hv⟩
      · exact .inr ⟨len, q, hdec, hv⟩
    · rcases he.cnt_changed hwf hj with ⟨k, m, x, y, rfl, hv⟩ | ⟨len, q, rfl, hv⟩ | ⟨len, q, rfl, hv⟩
      · exact .inl ⟨k, m, x, y, hdec, hv⟩
      · exact .inr (.inl ⟨len, q, hdec, hv⟩)
      · exact .inr (.inr ⟨len, q, hdec, hv⟩)

/-- Settles O26, by the frame of each unit's commands. -/
theorem unitsAreIndependent : Obligations.UnitsAreIndependent := by
  intro i s t h
  cases i with
  | consB | dstrB | insB | qryB | remB | statB => exact exec_frameC rfl h
  | consC | dstrC | insC | qryC | remC | statC => exact exec_frameB rfl h

/-- Settles O9: the placed command runs, and the decoder reads `i` from its words. -/
theorem placedInstructionRuns : Obligations.PlacedInstructionRuns := by
  intro s nbits w i hi
  have hr : Runs (s.withFetchWord nbits w) (tableHeader nbits w) (tablePayload nbits w) := runs_withCommand s _ _
  rw [step_of_runs hr, decode_of_decodeTableWord hi]

/-- Settles O43, of the reset state as it is written. -/
theorem resetStateWaits : Obligations.ResetStateWaits :=
  ⟨rfl, rfl, rfl, rfl, rfl, rfl, rfl, rfl⟩

/-- Settles O51: reset lists the arrays in canonical form, and its front end and response are empty. -/
theorem resetMeetsTheInvariant : Obligations.ResetMeetsTheInvariant :=
  inv_iff.2 ⟨⟨unitOk_of_constr_false rfl, arrayOk_ofSlots _ _⟩,
    ⟨unitOk_of_constr_false rfl, arrayOk_ofSlots _ _, fun _ => ⟨rfl, rfl⟩⟩,
    frontOk_none, fun _ => rfl, fun _ h => (nomatch h), fun _ h => (nomatch h)⟩

end Sys2Proof.Machine

/-! SUPPORT. Proofs of the statements of the memory family: the slot operations (spec/20_memory.md R53 to R55), the step at
which a command runs (10_state R32, R59), and that no state which meets the invariant faults (R51, 41_index_generator R133,
60_exceptions R214). -/

namespace Sys2Proof.Machine

/-! ### A write of one slot -/

/-- Both halves of R54 in one equation: the slot written, and every other. -/
theorem Memory.read_write {w : Nat} {a : Memory w} (ha : Memory.wf a = true) (i j : Nat) (v : BitVec w) :
    Memory.read (Memory.write a j v) i = if i = j then v else Memory.read a i := by
  split
  · next h => rw [h]; exact Memory.read_write_self ha j v
  · next h => exact Memory.read_write_other h v a

/-! ### No fault in a state that meets the invariant -/

/-- The fault of an impossible size needs a constructed unit, whose size `UnitOk` bounds (10_state R23). -/
theorem itemCommand_answers {op : BitVec 4} {u : UnitId} {len : BitVec 16} {payload : List Word} {s : State}
    {body : List Nat → Host.Outcome State Fault Refusal} (hu : UnitOk u (s.regs u))
    (hbody : ∀ js, ∃ t, body js = .next t) : ∃ t, itemCommand Config.hw op u len payload s body = .next t := by
  rcases itemCommand_cases (op := op) (u := u) (len := len) (payload := payload) (s := s) (body := body) with
    ⟨hc, hsize, -⟩ | ⟨e, -, he⟩ | ⟨-, hb⟩
  · obtain ⟨hm, hmax, -⟩ := hu hc
    rw [sizeOk_iff.2 ⟨hm, hmax⟩] at hsize
    cases hsize
  · exact ⟨_, he⟩
  · rw [hb]; exact hbody _

/-- Every command answers a next state where a constructed unit has a size its array can have. -/
theorem exec_answers {s : State} (hB : UnitOk .B s.b) (hC : UnitOk .C s.c) (i : Instr) : ∃ t, exec i s = .next t := by
  cases i with
  | consB | consC =>
    simp only [exec, execConsB, execConsC, consB, consC]
    split
    · exact ⟨_, rfl⟩
    · exact ⟨_, rfl⟩
  | dstrB | dstrC | statB | statC =>
    simp only [exec, execDstrB, execDstrC, execStatB, execStatC]
    split
    · exact ⟨_, rfl⟩
    · exact ⟨_, rfl⟩
  | insB | qryB =>
    simp only [exec, execInsB, execQryB, insB, qryB]
    exact itemCommand_answers hB fun _ => ⟨_, respond_eq _ _⟩
  | insC | qryC | remC =>
    simp only [exec, execInsC, execQryC, execRemC, insC, qryC, remC]
    exact itemCommand_answers hC fun _ => ⟨_, respond_eq _ _⟩
  | remB => exact ⟨_, rfl⟩

/-- A command that runs holds as many payload words as there is room for of those its header announces (10_state R33). -/
theorem Runs.payload_length {s : State} {h : Word} {payload : List Word} (hr : Runs s h payload)
    (hf : FrontOk s.front) : payload.length = min (payloadRoom Config.hw) (payloadWords h) := by
  obtain ⟨-, -, hready⟩ := hr
  obtain ⟨hfront, -⟩ := readyCommand_eq_some.1 hready
  exact (hf _ hfront).2

/-- The words that run are answered, as a command or by their decode error: the payload held is that of the header
(30_encoding R72). -/
theorem step_answers_of_runs {s : State} (hs : Inv s) {h : Word} {payload : List Word} (hr : Runs s h payload) :
    ∃ t, step s = .next t := by
  obtain ⟨⟨hB, -⟩, ⟨hC, -⟩, hf, -⟩ := inv_iff.1 hs
  rw [step_of_runs hr]
  rcases decode_cases (hr.payload_length hf) with ⟨-, hd⟩ | ⟨-, -, hd⟩ | ⟨-, -, i, hd⟩
  · rw [hd]; exact ⟨_, rfl⟩
  · rw [hd]; exact ⟨_, rfl⟩
  · rw [hd]; exact exec_answers (s := onEdge s) hB hC i

/-! ### The obligations -/

/-- Settles O52, along the branches of `step`: reset, a breach of the host's duty, a quiet edge, a command. -/
theorem invariantStatesDoNotFault : Obligations.InvariantStatesDoNotFault := by
  intro s hs
  cases hrst : (nextEdge s).rst with
  | true => exact .inl ⟨resetEdge s, if_pos hrst⟩
  | false =>
    cases hbreach : hostBreach s (nextEdge s) with
    | true => exact .inr ⟨rfl, by unfold step; rw [if_neg (by simp [hrst]), if_pos hbreach]⟩
    | false =>
      cases hready : readyCommand s with
      | none => exact .inl ⟨_, step_of_quiet hrst hbreach hready⟩
      | some c => exact .inl (step_answers_of_runs hs ⟨hrst, hbreach, hready⟩)

/-- Settles O41: the counters' operations are a read, the counter arithmetic of 00_scope R14, and a write. -/
theorem slotOperationsActOnOneSlot : Obligations.SlotOperationsActOnOneSlot := by
  refine ⟨fun w a j v ha => ⟨Memory.write_wf ha j v, fun i => Memory.read_write ha i j v⟩,
    fun a j i => read_bitSet a i j, fun a j i ha => ⟨?_, ?_, satMark_iff _, unfMark_iff _⟩⟩
  · rw [cntInc, Memory.read_write ha, apply_ite BitVec.toNat, satInc_toNat]
  · rw [cntDec, Memory.read_write ha, apply_ite BitVec.toNat, floorDec_toNat]

/-- Settles O8: the command's branch of `step`. -/
theorem stepRunsTheDecodedCommand : Obligations.StepRunsTheDecodedCommand := by
  intro s h payload i hr hd
  exact ⟨by rw [step_of_runs hr, hd], rfl⟩

end Sys2Proof.Machine

/-! SUPPORT. Proofs of the statements of the encoding family: the decoder and the encoder (spec/30_encoding.md R70 to
R79), the payload and the item (R72, R74, R84), the handshake and the responses (R80, R83), and `WITH_SIZE` (R85). -/

namespace Sys2Proof

/-! ### The checks of the decoder (R72, R77, R78) -/

theorem opReserved_iff (op : BitVec 4) : opReserved op = true ↔ op.toNat = 0 ∨ 7 ≤ op.toNat := by
  revert op; decide

theorem opReserved_eq_false_iff (op : BitVec 4) : opReserved op = false ↔ 1 ≤ op.toNat ∧ op.toNat ≤ 6 := by
  revert op; decide

theorem opHasItem_iff (op : BitVec 4) : opHasItem op = true ↔ op.toNat = 3 ∨ op.toNat = 4 ∨ op.toNat = 5 := by
  revert op; decide

theorem opCons_iff (op : BitVec 4) : op = opCons ↔ op.toNat = 1 := by
  revert op; decide

section
variable {h : Word}

theorem payloadWords_cons (ho : opOf h = opCons) : payloadWords h = 2 := if_pos ho

theorem payloadWords_item (hc : opOf h ≠ opCons) (ho : opHasItem (opOf h) = true) :
    payloadWords h = ((lenOf h).toNat + 7) / 8 := by
  unfold payloadWords; rw [if_neg hc, if_pos ho]

theorem payloadWords_bare (hc : opOf h ≠ opCons) (ho : opHasItem (opOf h) = false) : payloadWords h = 0 := by
  simp [payloadWords, hc, ho]

theorem fieldsOk_cons (ho : opOf h = opCons) : fieldsOk h = true ↔ rsvOf h = 0 ∧ lenOf h = 0 := by
  simp [fieldsOk, ho]

theorem fieldsOk_item (hc : opOf h ≠ opCons) (ho : opHasItem (opOf h) = true) :
    fieldsOk h = true ↔ rsvOf h = 0 ∧ kOf h = 0 ∧ mOf h = 0 := by
  simp [fieldsOk, hc, ho]

theorem fieldsOk_bare (hc : opOf h ≠ opCons) (ho : opHasItem (opOf h) = false) :
    fieldsOk h = true ↔ rsvOf h = 0 ∧ kOf h = 0 ∧ lenOf h = 0 ∧ mOf h = 0 := by
  simp [fieldsOk, hc, ho, and_assoc]

theorem payloadHeld_of_length {payload : List Word} (hp : payload.length = payloadWords h) :
    payloadHeld h payload = true := by
  unfold payloadHeld
  split
  · exact decide_eq_true hp.le
  · exact beq_iff_eq.2 hp

/-- The front end holds all words of a payload that is no item. -/
theorem payload_length_of_held {payload : List Word} (ho : opHasItem (opOf h) = false)
    (hp : payloadHeld h payload = true) : payload.length = payloadWords h := by
  simpa [payloadHeld, ho] using hp
end

/-- The words of `CONS` hold two seeds (R73). -/
theorem decodeCons_eq_ok {h : Word} {payload : List Word} {i : Instr} :
    decodeCons h payload = .ok i ↔ ∃ x y, payload = [x, y] ∧ i = Machine.consFor (unitOf h) (kOf h) (mOf h) x y := by
  constructor
  · intro hd
    unfold decodeCons at hd
    split at hd
    · next x y => split at hd <;> cases hd <;> next hu => exact ⟨x, y, rfl, by rw [hu]; rfl⟩
    · cases hd
  · rintro ⟨x, y, rfl, rfl⟩
    unfold decodeCons Machine.consFor
    cases unitOf h with
    | B => rfl
    | C => rfl

theorem decode_cons_eq {h : Word} {payload : List Word} (ho : opOf h = opCons) (hok : fieldsOk h = true)
    (hheld : payloadHeld h payload = true) : decode h payload = decodeCons h payload := by
  have hres : opReserved opCons = false := by decide
  simp [decode, ho, hres, hok, hheld]

/-- A header and payload are a command exactly when they pass the three checks (R79). -/
theorem decode_ok_iff {h : Word} {payload : List Word} :
    (∃ i, decode h payload = .ok i) ↔
      opReserved (opOf h) = false ∧ fieldsOk h = true ∧ payloadHeld h payload = true := by
  constructor
  · rintro ⟨i, hd⟩
    obtain ⟨hres, hok, -⟩ := Machine.decode_fields hd
    refine ⟨hres, hok, ?_⟩
    by_contra hheld
    rw [Bool.not_eq_true] at hheld
    simp [decode, hres, hok, hheld] at hd
  · rintro ⟨hres, hok, hheld⟩
    by_cases ho : opOf h = opCons
    · have hlen := payload_length_of_held (by rw [ho]; decide) hheld
      rw [payloadWords_cons ho] at hlen
      obtain ⟨x, y, hxy⟩ := List.length_eq_two.1 hlen
      exact ⟨_, (decode_cons_eq ho hok hheld).trans (decodeCons_eq_ok.2 ⟨x, y, hxy, rfl⟩)⟩
    · simp only [decode, hres, hok, hheld, ho, Bool.false_eq_true, ↓reduceIte, Bool.not_true]
      split; · exact ⟨_, rfl⟩
      split; · exact ⟨_, rfl⟩
      split; · exact ⟨_, rfl⟩
      split
      · exact ⟨_, rfl⟩
      · exact ⟨_, rfl⟩

/-! ### From the words of a command to the command -/

section
variable {op : BitVec 4} (u : UnitId) {len : BitVec 16} {payload : List Word}

theorem payloadFits_iff (hc : op ≠ opCons) (ho : opHasItem op = true) :
    payloadFits len payload = true ↔ payload.length = payloadWords (header op u 0 len 0) := by
  rw [payloadWords_item (by simpa) (by simpa), lenOf_header, payloadFits, beq_iff_eq]

theorem checks_consHeader (k : BitVec 8) (m : BitVec 32) (x y : Word) :
    fieldsOk (header opCons u k 0 m) = true ∧ payloadHeld (header opCons u k 0 m) [x, y] = true :=
  ⟨(fieldsOk_cons (by simp)).2 (by simp), payloadHeld_of_length (payloadWords_cons (by simp)).symm⟩

theorem checks_itemHeader (hc : op ≠ opCons) (ho : opHasItem op = true) (hf : payloadFits len payload = true) :
    fieldsOk (header op u 0 len 0) = true ∧ payloadHeld (header op u 0 len 0) payload = true :=
  ⟨(fieldsOk_item (by simpa) (by simpa)).2 (by simp), payloadHeld_of_length ((payloadFits_iff u hc ho).1 hf)⟩

theorem checks_bareHeader (hc : op ≠ opCons) (ho : opHasItem op = false) :
    fieldsOk (header op u 0 0 0) = true ∧ payloadHeld (header op u 0 0 0) [] = true :=
  ⟨(fieldsOk_bare (by simpa) (by simpa)).2 (by simp),
    payloadHeld_of_length (payloadWords_bare (by simpa) (by simpa)).symm⟩
end

/-- The words of a well-formed command pass the decoder's checks. -/
theorem checks_of_encode {i : Instr} (hi : i.wf = true) {h : Word} {payload : List Word}
    (he : encode i = h :: payload) : fieldsOk h = true ∧ payloadHeld h payload = true := by
  cases i with
  | consB k m x y | consC k m x y => cases he; exact checks_consHeader _ k m x y
  | dstrB | dstrC | statB | statC => cases he; exact checks_bareHeader _ (by decide) (by decide)
  | insB | insC | qryB | qryC | remB | remC => cases he; exact checks_itemHeader _ (by decide) (by decide) hi

/-- The words of a well-formed command, header and payload, decode to it. -/
theorem decode_of_encode {i : Instr} (hi : i.wf = true) {h : Word} {payload : List Word}
    (he : encode i = h :: payload) : decode h payload = .ok i := by
  obtain ⟨hok, hheld⟩ := checks_of_encode hi he
  rw [decode, hok, hheld]
  cases i with
  | consB | consC => cases he; simp +decide [decodeCons]
  | _ => cases he; simp +decide [forUnit]

theorem encode_ne_nil (i : Instr) : encode i ≠ [] := by
  cases i <;> exact List.cons_ne_nil _ _

/-! ### From a decoded header back to its words -/

section
variable {h : Word} (hok : fieldsOk h = true)
include hok

theorem header_of_cons (ho : opOf h = opCons) : header opCons (unitOf h) (kOf h) 0 (mOf h) = h := by
  obtain ⟨hrsv, hlen⟩ := (fieldsOk_cons ho).1 hok
  have hh := header_fields h hrsv
  rwa [ho, hlen] at hh

theorem header_of_item (hc : opOf h ≠ opCons) (ho : opHasItem (opOf h) = true) :
    header (opOf h) (unitOf h) 0 (lenOf h) 0 = h := by
  obtain ⟨hrsv, hk, hm⟩ := (fieldsOk_item hc ho).1 hok
  have hh := header_fields h hrsv
  rwa [hk, hm] at hh

theorem header_of_bare (hc : opOf h ≠ opCons) (ho : opHasItem (opOf h) = false) :
    header (opOf h) (unitOf h) 0 0 0 = h := by
  obtain ⟨hrsv, hk, hlen, hm⟩ := (fieldsOk_bare hc ho).1 hok
  have hh := header_fields h hrsv
  rwa [hk, hlen, hm] at hh
end

/-- No bit of a header and payload that decode to a command is dropped. -/
theorem encode_of_decode {h : Word} {payload : List Word} {i : Instr} (hd : decode h payload = .ok i) :
    encode i = h :: payload := by
  obtain ⟨-, hok, hheld⟩ := decode_ok_iff.1 ⟨i, hd⟩
  obtain ⟨-, -, hfields⟩ := Machine.decode_fields hd
  have hou := Machine.decode_opAndUnit hd
  cases i with
  | consB k m x y | consC k m x y =>
    obtain ⟨ho, hu⟩ := Prod.mk.inj hou
    rw [decode_cons_eq ho.symm hok hheld] at hd
    obtain ⟨x', y', rfl, hi⟩ := decodeCons_eq_ok.1 hd
    rw [← hu] at hi
    cases hi
    have hh := header_of_cons hok ho.symm
    rw [← hu] at hh
    rw [encode, hh]
  | dstrB | dstrC | statB | statC =>
    obtain ⟨ho, hu⟩ := Prod.mk.inj hou
    have hc : opOf h ≠ opCons := by rw [← ho]; decide
    have hbare : opHasItem (opOf h) = false := by rw [← ho]; decide
    have hnil := payload_length_of_held hbare hheld
    rw [payloadWords_bare hc hbare, List.length_eq_zero_iff] at hnil
    have hh := header_of_bare hok hc hbare
    rw [← ho, ← hu] at hh
    rw [encode, hnil, hh]
  | insB len p | insC len p | qryB len p | qryC len p | remB len p | remC len p =>
    obtain ⟨rfl, rfl⟩ := hfields
    obtain ⟨ho, hu⟩ := Prod.mk.inj hou
    have hc : opOf h ≠ opCons := by rw [← ho]; decide
    have hitem : opHasItem (opOf h) = true := by rw [← ho]; decide
    have hh := header_of_item hok hc hitem
    rw [← ho, ← hu] at hh
    rw [encode, hh]

/-- A command whose payload has the length its header announces is well formed. -/
theorem wf_of_encode {i : Instr} {h : Word} {payload : List Word} (he : encode i = h :: payload)
    (hlen : payload.length = payloadWords h) : i.wf = true := by
  cases i with
  | consB | consC | dstrB | dstrC | statB | statC => rfl
  | insB len p | insC len p | qryB len p | qryC len p | remB len p | remC len p =>
    cases he
    exact (payloadFits_iff _ (by decide) (by decide)).2 hlen

/-- Settles O1, over the forms of a command's words: `CONS` with its two seeds, an item, a header alone. -/
theorem encodedCommandDecodesBack : Obligations.EncodedCommandDecodesBack := by
  intro i hi
  obtain ⟨h, payload, he⟩ := List.exists_cons_of_ne_nil (encode_ne_nil i)
  rw [he, decodeWords, decode_of_encode hi he]
  rfl

/-- Settles O2: the fields that the checks require to be zero are the ones the command does not carry. -/
theorem decodedCommandEncodesBack : Obligations.DecodedCommandEncodesBack := by
  intro h payload i hd
  have he := encode_of_decode hd
  exact ⟨he, wf_of_encode he⟩

/-- Settles O3, along the three checks of the decoder. -/
theorem everyHeaderIsSorted : Obligations.EveryHeaderIsSorted := by
  intro h payload
  refine ⟨fun hop => ?_, fun hop hbad => ?_, fun hop hok hlen => ?_⟩
  · simp [decode, (opReserved_iff _).2 hop]
  · simp [decode, (opReserved_eq_false_iff _).2 hop, hbad]
  · obtain ⟨i, hd⟩ := decode_ok_iff.2 ⟨(opReserved_eq_false_iff _).2 hop, hok, payloadHeld_of_length hlen⟩
    exact ⟨i, hd, wf_of_encode (encode_of_decode hd) hlen⟩

/-- Settles O4, each list of words by evaluation. -/
theorem specWordsDecode : Obligations.SpecWordsDecode := by
  unfold Obligations.SpecWordsDecode
  decide

end Sys2Proof

namespace Sys2Proof.Machine

/-! ### The payload a front end holds (R72) -/

/-- The function that R72 writes. -/
theorem payloadWords_eq (h : Word) :
    payloadWords h = if (opOf h).toNat = 1 then 2
      else if (opOf h).toNat = 3 ∨ (opOf h).toNat = 4 ∨ (opOf h).toNat = 5 then ((lenOf h).toNat + 7) / 8 else 0 := by
  simp only [payloadWords, opCons_iff, opHasItem_iff]

theorem feed_concat (h w : Word) (ws : List Word) :
    feed (h :: (ws ++ [w])) = some (acceptWord Config.hw w (feed (h :: ws))) := by
  simp [feed]

/-- A front end that has room takes the next word, one that is full drops it. -/
theorem take_concat {α : Type} (n : Nat) (ws : List α) (w : α) :
    (ws ++ [w]).take n = if (ws.take n).length < n then ws.take n ++ [w] else ws.take n := by
  rw [List.length_take]
  split
  · rw [List.take_of_length_le (by simp; omega), List.take_of_length_le (by omega)]
  · rw [List.take_append_of_le_length (by omega)]

/-- The front end after a header and any number of words. -/
theorem feed_cons (h : Word) (ws : List Word) :
    feed (h :: ws) = some { header := h, payload := ws.take (payloadRoom Config.hw),
                            owed := payloadWords h - ws.length } := by
  induction ws using List.reverseRecOn with
  | nil => simp [feed, acceptWord, acceptHeader]
  | append_singleton ws w ih =>
    rw [feed_concat, ih, take_concat, List.length_append, List.length_singleton, ← Nat.sub_sub]
    rfl

/-- Settles O5, by induction on the words after the header. -/
theorem frontEndTakesExactlyThePayload : Obligations.FrontEndTakesExactlyThePayload := by
  intro h ws
  refine ⟨payloadWords_eq h, fun hlen => ⟨fun n hn => ?_, ?_⟩⟩
  · rw [feed_cons, List.length_take_of_le (by omega)]
    simp only [frontComplete, beq_eq_false_iff_ne]
    omega
  · rw [feed_cons, hlen, Nat.sub_self]

/-! ### The bytes of an item (R74, R84) -/

/-- Byte `j` of a packed word is byte `j` of the list. -/
theorem byte_packWord (b : List Byte) : ∀ j < 8, (packWord b).extractLsb' (8 * j) 8 = b.getD j 0
  | 0, _ => field_low _ _
  | 1, _ => (field_high _ _ 0 8).trans (field_low _ _)
  | 2, _ => (field_high _ _ 8 8).trans <| (field_high _ _ 0 8).trans (field_low _ _)
  | 3, _ => (field_high _ _ 16 8).trans <| (field_high _ _ 8 8).trans <| (field_high _ _ 0 8).trans (field_low _ _)
  | 4, _ => (field_high _ _ 24 8).trans <| (field_high _ _ 16 8).trans <| (field_high _ _ 8 8).trans <|
      (field_high _ _ 0 8).trans (field_low _ _)
  | 5, _ => (field_high _ _ 32 8).trans <| (field_high _ _ 24 8).trans <| (field_high _ _ 16 8).trans <|
      (field_high _ _ 8 8).trans <| (field_high _ _ 0 8).trans (field_low _ _)
  | 6, _ => (field_high _ _ 40 8).trans <| (field_high _ _ 32 8).trans <| (field_high _ _ 24 8).trans <|
      (field_high _ _ 16 8).trans <| (field_high _ _ 8 8).trans <| (field_high _ _ 0 8).trans (field_low _ _)
  | 7, _ => (field_high _ _ 48 8).trans <| (field_high _ _ 40 8).trans <| (field_high _ _ 32 8).trans <|
      (field_high _ _ 24 8).trans <| (field_high _ _ 16 8).trans <| (field_high _ _ 8 8).trans <|
      (field_high _ _ 0 8).trans (field_all _)

@[simp] theorem length_packItem (item : List Byte) : (packItem item).length = (item.length + 7) / 8 := by
  simp [packItem]

@[simp] theorem length_itemBytes (len : BitVec 16) (payload : List Word) :
    (itemBytes len payload).length = len.toNat := by
  simp [itemBytes]

@[simp] theorem getElem_itemBytes (len : BitVec 16) (payload : List Word) (j : Nat)
    (hj : j < (itemBytes len payload).length) : (itemBytes len payload)[j] = payloadByte payload j := by
  simp [itemBytes]

/-- Byte `j` of the packed words is byte `j` of the item. -/
theorem payloadByte_packItem {item : List Byte} {j : Nat} (hj : j < item.length) :
    payloadByte (packItem item) j = item[j] := by
  have hword : (packItem item).getD (j / 8) 0 = packWord (item.drop (8 * (j / 8))) := by
    simp [packItem, List.getD_eq_getElem?_getD, show j / 8 < (item.length + 7) / 8 by omega]
  rw [payloadByte, hword, byte_packWord _ _ (Nat.mod_lt j (by decide)), List.getD_eq_getElem?_getD,
    List.getElem?_drop, Nat.div_add_mod, List.getElem?_eq_getElem hj]
  rfl

theorem itemLenField_toNat {item : List Byte} (h : item.length ≤ 65535) :
    (itemLenField item).toNat = item.length := by
  rw [itemLenField, BitVec.toNat_ofNat, Nat.mod_eq_of_lt (by omega)]

/-- Settles O6, byte by byte. -/
theorem packedItemIsReadBack : Obligations.PackedItemIsReadBack := by
  intro item hlen
  refine ⟨List.ext_getElem (by simp [itemLenField_toNat hlen]) fun j hj hj' => ?_, length_packItem item⟩
  rw [getElem_itemBytes, payloadByte_packItem hj']

/-- Two payloads of the same bytes below `LEN` hold the same item (R74). -/
theorem itemBytes_congr {len : BitVec 16} {p q : List Word}
    (h : ∀ j < len.toNat, payloadByte p j = payloadByte q j) : itemBytes len p = itemBytes len q :=
  List.map_congr_left fun j hj => h j (List.mem_range.1 hj)

/-- A command on an item reads of its payload the item alone. -/
theorem itemCommand_payload_congr {len : BitVec 16} {p q : List Word} (h : itemBytes len p = itemBytes len q)
    (cfg : Config) (op : BitVec 4) (u : UnitId) (s : State) (body : List Nat → Host.Outcome State Fault Refusal) :
    itemCommand cfg op u len p s body = itemCommand cfg op u len q s body := by
  unfold itemCommand; rw [h]

/-- Settles O7: the commands read `itemBytes` and no other bit of the payload. -/
theorem paddingIsIgnored : Obligations.PaddingIsIgnored := by
  refine ⟨fun len payload => ⟨length_itemBytes len payload, fun j hj => ?_⟩, fun len p q s h => ?_⟩
  · rw [List.getD_eq_getElem _ _ (by simpa), getElem_itemBytes, payloadByte]
  · have hc := itemCommand_payload_congr (itemBytes_congr h)
    simp only [exec, execInsB, execQryB, execInsC, execQryC, execRemC, execRemB, insB, qryB, insC, qryC, remC, hc,
      and_self]

/-! ### The response of a command (R80) -/

@[simp] theorem opOf_word (r : Response) : opOf r.word = r.op := r.op_word

@[simp] theorem unitOf_word (r : Response) : unitOf r.word = r.u := by
  unfold unitOf
  rw [r.unit_word]
  cases r.u <;> rfl

/-- The response to a command echoes its `OP` and unit. -/
theorem exec_echoes {i : Instr} {s t : State} (h : exec i s = .next t) :
    ∃ r, t.rsp = some r ∧ (opOf r, unitOf r) = opAndUnit i := by
  rcases exec_cases h with ⟨e, rfl⟩ | ⟨t', -, rfl⟩
  · exact ⟨_, rfl, by simp⟩
  · obtain ⟨hop, hu, -⟩ := successResponse_fields i s
    exact ⟨_, rfl, by simp [hop, hu]⟩

/-- The step at which the words of a command run puts out one response, which echoes the header, and takes none away. -/
theorem step_echoes {s t : State} {h : Word} {payload : List Word} (hr : Runs s h payload) (hstep : step s = .next t) :
    t.taken = s.taken ∧ ∃ r, t.rsp = some r ∧ opOf r = opOf h ∧ unitOf r = unitOf h := by
  rw [step_of_runs hr] at hstep
  cases hd : decode h payload with
  | ok i =>
    rw [hd] at hstep
    obtain ⟨⟨-, -, -, -, htaken, -⟩, -⟩ := exec_ports hstep
    obtain ⟨r, hrsp, hecho⟩ := exec_echoes hstep
    rw [decode_opAndUnit hd] at hecho
    exact ⟨htaken.symm, r, hrsp, Prod.mk.inj hecho⟩
  | error d =>
    rw [hd] at hstep
    cases d with
    | illegalOpcode | reservedField => cases hstep; exact ⟨rfl, _, rfl, by simp⟩
    | payloadCount => cases hstep

/-- A transfer moves the waiting response behind those taken, or leaves both. -/
theorem transfer_responses (cfg : Config) (s : State) (e : Edge) :
    (transfer cfg s e).taken ++ (transfer cfg s e).rsp.toList = s.taken ++ s.rsp.toList := by
  rw [transfer_taken, transfer_rsp]
  split
  · simp
  · rfl

/-- Settles O19: the two cases are a step at which a command runs and a quiet one. -/
theorem oneResponsePerCommandInOrder : Obligations.OneResponsePerCommandInOrder := by
  intro s t hrst h
  have hbreach : hostBreach s (nextEdge s) = false := by
    by_contra hb
    rw [Bool.not_eq_false] at hb
    simp [step, hrst, hb] at h
  refine ⟨fun hd payload hready => ⟨(readyCommand_eq_some.1 hready).2.2, ?_⟩, fun hready => ?_⟩
  · exact step_echoes ⟨hrst, hbreach, hready⟩ h
  · rw [step_of_quiet hrst hbreach hready] at h
    cases h
    exact transfer_responses _ _ _

/-! ### The handshake (R83) -/

section
variable {s : State} {e : Edge} (hrst : e.rst = false)
include hrst

theorem wordTransfers_eq : wordTransfers s e = (e.cmdValid && cmdReady s) := by
  simp [wordTransfers, hrst]

theorem responseTransfers_eq : responseTransfers s e = (e.rspReady && rspValid s) := by
  simp [responseTransfers, hrst]

theorem stillHeld_eq : stillHeld s e = if e.cmdValid && !cmdReady s then some e.cmdData else none := by
  unfold stillHeld
  rw [wordTransfers_eq hrst]
  cases e.cmdValid <;> rfl

/-- With `rsp_ready` the response place is empty after the edge, and what waited in it has been taken. -/
theorem transfer_of_rspReady (cfg : Config) (hready : e.rspReady = true) :
    (transfer cfg s e).rsp = none ∧ (transfer cfg s e).taken = s.taken ++ s.rsp.toList := by
  rw [transfer_rsp, transfer_taken, responseTransfers_eq hrst, hready]
  cases hr : s.rsp <;> simp [rspValid, hr]

/-- Without `rsp_ready` the response waits on, and none is taken. -/
theorem transfer_of_not_rspReady (cfg : Config) (hready : e.rspReady = false) :
    (transfer cfg s e).rsp = s.rsp ∧ (transfer cfg s e).taken = s.taken := by
  simp [responseTransfers_eq hrst, hready]
end

/-- Settles O44: a quiet edge is a transfer. -/
theorem handshakeTransfers : Obligations.HandshakeTransfers := by
  intro s hrst hbreach hready
  refine ⟨_, step_of_quiet hrst hbreach hready, ⟨rfl, rfl, rfl, rfl, rfl, rfl⟩, ?_,
    transfer_of_rspReady hrst _, transfer_of_not_rspReady hrst _, stillHeld_eq hrst⟩
  rw [transfer_front, wordTransfers_eq hrst]

/-! ### What a command's answer depends on (R83, R252) -/

/-- Two outcomes of the same architectural state and response, or the same stop. -/
def OutcomeArchEq : Host.Outcome State Fault Refusal → Host.Outcome State Fault Refusal → Prop
  | .next s, .next t => ArchEq s t ∧ s.rsp = t.rsp
  | .fault f, .fault g => f = g
  | .refused f, .refused g => f = g
  | _, _ => False

theorem OutcomeArchEq.next_left {o : Host.Outcome State Fault Refusal} {s : State} (h : OutcomeArchEq (.next s) o) :
    ∃ t, o = .next t ∧ ArchEq s t ∧ s.rsp = t.rsp := by
  cases o with
  | next t => exact ⟨t, rfl, h⟩
  | fault | refused => exact h.elim

theorem ArchEq.respond {s t : State} (h : ArchEq s t) {r r' : Response} (hr : r = r') :
    OutcomeArchEq (respond r s) (respond r' t) :=
  ⟨h, by rw [hr]⟩

theorem ArchEq.raise {s t : State} (h : ArchEq s t) (op : BitVec 4) (u : UnitId) (e : ErrorCode) :
    OutcomeArchEq (raise op u e s) (raise op u e t) :=
  h.respond rfl

theorem ArchEq.regs {s t : State} (h : ArchEq s t) (u : UnitId) : s.regs u = t.regs u := by
  obtain ⟨hb, hc, -⟩ := h
  cases u with
  | B => exact hb
  | C => exact hc

theorem ArchEq.consCheck {s t : State} (h : ArchEq s t) (cfg : Config) (u : UnitId) (k : BitVec 8) (m : BitVec 32) :
    consCheck cfg u k m s = consCheck cfg u k m t := by
  unfold Machine.consCheck; rw [h.regs u]

theorem ArchEq.itemCommand {s t : State} (h : ArchEq s t) (cfg : Config) (op : BitVec 4) (u : UnitId)
    (len : BitVec 16) (payload : List Word) {body body' : List Nat → Host.Outcome State Fault Refusal}
    (hbody : ∀ js, OutcomeArchEq (body js) (body' js)) :
    OutcomeArchEq (itemCommand cfg op u len payload s body) (itemCommand cfg op u len payload t body') := by
  unfold Machine.itemCommand sizeOk
  rw [← h.regs u]
  split
  · exact h.raise _ _ _
  split
  · exact h.raise _ _ _
  split
  · exact rfl
  · exact hbody _

/-- A command answers alike from two states of the same architectural state. -/
theorem ArchEq.exec {s t : State} (h : ArchEq s t) (i : Instr) : OutcomeArchEq (exec i s) (exec i t) := by
  have hcheck := h.consCheck Config.hw
  obtain ⟨b, c, ssat, sunf, arr, cnt⟩ := s
  obtain ⟨b', c', ssat', sunf', arr', cnt'⟩ := t
  have hfields := h
  simp only [ArchEq] at hfields
  obtain ⟨rfl, rfl, rfl, rfl, rfl, rfl⟩ := hfields
  cases i with
  | consB | consC =>
    simp only [Machine.exec, execConsB, consB, execConsC, consC, hcheck]
    split
    · exact h.raise _ _ _
    · exact ArchEq.respond ⟨rfl, rfl, rfl, rfl, rfl, rfl⟩ rfl
  | dstrB | dstrC =>
    simp only [Machine.exec, execDstrB, execDstrC]
    split
    · exact ArchEq.respond ⟨rfl, rfl, rfl, rfl, rfl, rfl⟩ rfl
    · exact h.raise _ _ _
  | insB | insC | qryB | qryC | remC =>
    simp only [Machine.exec, execInsB, execInsC, execQryB, execQryC, execRemC, insB, insC, qryB, qryC, remC]
    exact h.itemCommand _ _ _ _ _ fun _ => ArchEq.respond ⟨rfl, rfl, rfl, rfl, rfl, rfl⟩ rfl
  | remB => exact h.raise _ _ _
  | statB | statC =>
    simp only [Machine.exec, execStatB, execStatC]
    split
    · exact h.respond rfl
    · exact h.respond rfl

/-- Settles O48: both states answer alike, and of the ports a command writes the response alone. -/
theorem commandsDependOnTheArchitecture : Obligations.CommandsDependOnTheArchitecture := by
  intro i s s' t h hex
  have hanswer := h.exec i
  rw [hex] at hanswer
  obtain ⟨t', hex', harch, hrsp⟩ := hanswer.next_left
  exact ⟨t', hex', harch, hrsp, (exec_ports hex).1, (exec_ports hex').1⟩

/-! ### The host's `WITH_SIZE` (R85) -/

theorem encode_consFor (u : UnitId) (k : BitVec 8) (m : BitVec 32) (x y : Word) :
    encode (consFor u k m x y) = [header opCons u k 0 m, x, y] := by
  cases u <;> rfl

/-- Settles O57: within the bounds the numbers are those of their header fields. -/
theorem withSizeIssuesTheCommand : Obligations.WithSizeIssuesTheCommand := by
  intro u bits hashes x y
  refine ⟨fun hbad => if_pos hbad, fun hbits hhashes => ?_⟩
  have hissued : withSize u bits hashes x y = .ok (consFor u (BitVec.ofNat 8 hashes) (BitVec.ofNat 32 bits) x y) :=
    if_neg (by omega)
  refine ⟨_, ⟨_, hissued, encode_consFor ..⟩, opOf_header .., unitOf_header .., ?_, ?_, lenOf_header ..,
    rsvOf_header ..⟩
  · rw [mOf_header, BitVec.toNat_ofNat, Nat.mod_eq_of_lt (by omega)]
  · rw [kOf_header, BitVec.toNat_ofNat, Nat.mod_eq_of_lt (by omega)]

end Sys2Proof.Machine

/-! SUPPORT. Proofs of the statements of the sizing and construction family: Sizing over the reals
(spec/40_sizing_and_construction.md R100 to R109), `CONS` (R110, R111), `DSTR` (R112, R113) and `STAT` (R114, R115). -/

namespace Sys2Proof.Machine

/-! ### The errors of `CONS` (R110, R111) -/

/-- The number of the first error of `CONS.u` that applies, where one does. -/
def consErrorNumber (r : UnitRegs) (k : BitVec 8) (m : BitVec 32) : BitVec 8 :=
  if r.constr then 6 else if m = 0 then 7 else if k = 0 then 8 else 9

/-- Where a check of `CONS.u` fails, the error found has the number of the first that applies. -/
theorem consCheck_eq_some {cfg : Config} {u : UnitId} {k : BitVec 8} {m : BitVec 32} {s : State}
    (h : (s.regs u).constr = true ∨ m = 0 ∨ k = 0 ∨ cfg.mMax u < m.toNat) :
    ∃ e, consCheck cfg u k m s = some e ∧ errorNumber e = consErrorNumber (s.regs u) k m := by
  unfold consCheck consErrorNumber
  by_cases hc : (s.regs u).constr = true
  · exact ⟨.alreadyConstructed, by rw [if_pos hc], by rw [if_pos hc]; rfl⟩
  · rw [if_neg hc, if_neg hc]
    by_cases hm : m = 0
    · exact ⟨.zeroBits, by rw [if_pos hm], by rw [if_pos hm]; rfl⟩
    · rw [if_neg hm, if_neg hm]
      by_cases hk : k = 0
      · exact ⟨.zeroHashes, by rw [if_pos hk], by rw [if_pos hk]; rfl⟩
      · rw [if_neg hk, if_neg hk]
        have hmax : cfg.mMax u < m.toNat := ((h.resolve_left hc).resolve_left hm).resolve_left hk
        exact ⟨.capacity, by rw [if_pos hmax], rfl⟩

/-! ### The response words of `CONS` and `DSTR` -/

theorem consResponse_word : Response.word { op := opCons, u := .B } = 0x1000000000000000 ∧
    Response.word { op := opCons, u := .C } = 0x1800000000000000 := by decide

theorem dstrResponse_word : Response.word { op := opDstr, u := .B } = 0x2000000000000000 ∧
    Response.word { op := opDstr, u := .C } = 0x2800000000000000 := by decide

theorem dstrError_word :
    Response.word { op := opDstr, u := .B, code := errorNumber .notConstructed } = 0x2005000000000000 ∧
    Response.word { op := opDstr, u := .C, code := errorNumber .notConstructed } = 0x2805000000000000 := by decide

/-! ### The obligations on construction and destruction -/

/-- Settles O20: `CONS.B` has its effect where no check fails, and raises the error of the first check that fails. -/
theorem consBConstructs : Obligations.ConsBConstructs := by
  intro k m x y s
  refine ⟨decode_of_encode (i := .consB k m x y) rfl rfl, fun hc hm hk hmax => ?_, fun cfg h => ?_, rfl⟩
  · have hword : (successResponse (.consB k m x y) s).word = 0x1000000000000000 := consResponse_word.1
    refine ⟨_, exec_of_effect (i := .consB k m x y) ⟨⟨hc, hm, hk, hmax⟩, rfl⟩, ?_, fun j => Memory.read_clear _ j _⟩
    rw [hword]; rfl
  · obtain ⟨e, he, hnum⟩ := consCheck_eq_some (u := .B) h
    rw [consB, he]
    exact (raise_eq ..).trans (by rw [hnum]; rfl)

/-- Settles O21 in the same way. -/
theorem consCConstructs : Obligations.ConsCConstructs := by
  intro k m x y s
  refine ⟨decode_of_encode (i := .consC k m x y) rfl rfl, fun hc hm hk hmax => ?_, fun cfg h => ?_, rfl⟩
  · have hword : (successResponse (.consC k m x y) s).word = 0x1800000000000000 := consResponse_word.2
    refine ⟨_, exec_of_effect (i := .consC k m x y) ⟨⟨hc, hm, hk, hmax⟩, rfl⟩, ?_, fun j => Memory.read_clear _ j _⟩
    rw [hword]; rfl
  · obtain ⟨e, he, hnum⟩ := consCheck_eq_some (u := .C) h
    rw [consC, he]
    exact (raise_eq ..).trans (by rw [hnum]; rfl)

/-- Settles O22: a constructed unit takes the effect of `DSTR`, an unconstructed one the error. -/
theorem destroyEndsTheLifetime : Obligations.DestroyEndsTheLifetime := by
  intro s
  refine ⟨decode_of_encode (i := .dstrB) rfl rfl, decode_of_encode (i := .dstrC) rfl rfl,
    fun hc => ?_, fun hc => ?_, fun hc => ?_, fun hc => ?_⟩
  · rw [exec_of_effect (i := .dstrB) ⟨hc, rfl⟩, successResponse, dstrResponse_word.1]
  · rw [exec_of_effect (i := .dstrC) ⟨hc, rfl⟩, successResponse, dstrResponse_word.2]
  · rw [exec, execDstrB, hc, if_neg Bool.false_ne_true, raise_eq, dstrError_word.1]
  · rw [exec, execDstrC, hc, if_neg Bool.false_ne_true, raise_eq, dstrError_word.2]

/-! ### The status response (R114, R115) -/

/-- The top 16 bits of a response: `OP`, `U`, three zeros and `CODE` (30_encoding R80). -/
theorem Response.head_word (r : Response) : r.word.extractLsb' 48 16 = r.op ++ r.u.bit ++ 0#3 ++ r.code := by
  rw [← r.op_word, ← r.unit_word, ← r.zero3_word, ← r.code_word, field_join r.word 59 4 1,
    field_join r.word 56 (4 + 1) 3, field_join r.word 48 (4 + 1 + 3) 8]

/-- `UNF` and `SAT` are neighbours (30_encoding R80). -/
theorem Response.flags_word {r : Response} (hunf : r.unf = false) (hsat : r.sat = false) :
    r.word.extractLsb' 33 2 = 0 := by
  rw [← field_join r.word 33 1 1, r.unf_word, r.sat_word, hunf, hsat]
  rfl

theorem successResponse_statB (s : State) : successResponse .statB s =
    { op := opStat, u := .B, con := s.b.constr, pk := if s.b.constr then s.b.k else 0,
      m := if s.b.constr then s.b.m else 0 } := by
  cases h : s.b.constr <;> simp [successResponse, h]

theorem successResponse_statC (s : State) : successResponse .statC s =
    { op := opStat, u := .C, con := s.c.constr, pk := if s.c.constr then s.c.k else 0,
      m := if s.c.constr then s.c.m else 0, sat := s.c.constr && s.ssat, unf := s.c.constr && s.sunf } := by
  cases h : s.c.constr <;> simp [successResponse, h]

/-- `OP`, `U`, three zeros and `CODE` of both status responses. -/
theorem statHead : opStat ++ UnitId.bit .B ++ 0#3 ++ 0#8 = 0x6000 ∧ opStat ++ UnitId.bit .C ++ 0#3 ++ 0#8 = 0x6800 := by
  decide

/-- Settles O23: `STAT` always has its effect, and each field of the response word is read back. -/
theorem statusReadsTheParameters : Obligations.StatusReadsTheParameters := by
  intro s
  have hB := exec_of_effect (i := .statB) (s := s) rfl
  have hC := exec_of_effect (i := .statC) (s := s) rfl
  rw [successResponse_statB] at hB
  rw [successResponse_statC] at hC
  exact ⟨decode_of_encode (i := .statB) rfl rfl, decode_of_encode (i := .statC) rfl rfl,
    ⟨_, hB, (Response.head_word _).trans statHead.1, Response.zero4_word _, Response.flags_word rfl rfl,
      Response.res_word _, Response.con_word _, Response.pk_word _, Response.m_word _⟩,
    ⟨_, hC, (Response.head_word _).trans statHead.2, Response.zero4_word _, Response.res_word _, Response.con_word _,
      Response.unf_word _, Response.sat_word _, Response.pk_word _, Response.m_word _⟩⟩

/-! ### The branches of Sizing (R100, R104) -/

/-- A rate that is no real number in (0, 1), whatever the item count. -/
theorem sizing_of_bad_rate {rate : Option ℝ} (h : ∀ p, rate = some p → p ≤ 0 ∨ 1 ≤ p) (n : ℕ) :
    sizing rate n = .error .rate := by
  cases rate with
  | none => rfl
  | some p =>
    have hp : ¬ (0 < p ∧ p < 1) := fun ⟨h0, h1⟩ => (h p rfl).elim h0.not_ge h1.not_ge
    exact if_pos hp

section
variable {p : ℝ} (h0 : 0 < p) (h1 : p < 1)
include h0 h1

theorem sizing_of_no_items : sizing (some p) 0 = .error .items :=
  (if_neg (not_not_intro ⟨h0, h1⟩)).trans (if_pos rfl)

theorem sizing_of_domain {n : ℕ} (hn : 1 ≤ n) : sizing (some p) n = .ok (numBits p n, numHashes (numBits p n) n) :=
  (if_neg (not_not_intro ⟨h0, h1⟩)).trans (if_neg (by omega))
end

/-- `WITH_RATE` hands a failure of Sizing on and issues no command (R107). -/
theorem withRate_of_error {rate : Option ℝ} {n : ℕ} {e : SizingError} (h : sizing rate n = .error e) (u : UnitId)
    (x y : Word) : withRate u rate n x y = .error e := by
  rw [withRate, h]

/-- `WITH_RATE` is `WITH_SIZE` of the two numbers (R107). -/
theorem withRate_of_ok {rate : Option ℝ} {n bits hashes : ℕ} (h : sizing rate n = .ok (bits, hashes)) (u : UnitId)
    (x y : Word) : withRate u rate n x y = withSize u bits hashes x y := by
  rw [withRate, h]

/-! ### The formulas (R101, R102) -/

theorem bitsBeforeCeil_pos {p : ℝ} (h0 : 0 < p) (h1 : p < 1) {n : ℕ} (hn : 1 ≤ n) : 0 < bitsBeforeCeil p n := by
  have hn' : (0 : ℝ) < n := by exact_mod_cast hn
  have hlog : n * Real.log p < 0 := mul_neg_of_pos_of_neg hn' (Real.log_neg h0 h1)
  exact div_pos (neg_pos.2 hlog) (pow_pos (Real.log_pos one_lt_two) 2)

/-- The logarithm rises, and the formula carries it with a negative sign. -/
theorem bitsBeforeCeil_anti {p q : ℝ} (h0 : 0 < p) (hpq : p ≤ q) (n : ℕ) :
    bitsBeforeCeil q n ≤ bitsBeforeCeil p n := by
  have hlog : n * Real.log p ≤ n * Real.log q :=
    mul_le_mul_of_nonneg_left (Real.log_le_log h0 hpq) n.cast_nonneg
  exact div_le_div_of_nonneg_right (neg_le_neg hlog) (sq_nonneg _)

theorem numHashes_cast (bits n : ℕ) :
    (numHashes bits n : ℤ) = max 1 (round ((bits : ℝ) / n * Real.log 2)) := by
  unfold numHashes
  omega

/-! ### The obligations on Sizing -/

/-- Settles O53: the two failing branches, which `WITH_RATE` hands on. -/
theorem sizingFails : Obligations.SizingFails := by
  refine ⟨fun rate n h => ?_, fun p h0 h1 => ?_⟩
  · have hs := sizing_of_bad_rate h n
    exact ⟨hs, withRate_of_error hs⟩
  · have hs := sizing_of_no_items h0 h1
    exact ⟨hs, withRate_of_error hs⟩

/-- Settles O54: `num_bits` is a ceiling of a positive number, `num_hashes` a maximum with 1. -/
theorem sizingReturnsTheFormulas : Obligations.SizingReturnsTheFormulas := by
  intro p n h0 h1 hn
  have hpos := bitsBeforeCeil_pos h0 h1 hn
  exact ⟨_, _, sizing_of_domain h0 h1 hn, Nat.ceil_pos.2 hpos, le_max_left 1 _,
    sub_lt_iff_lt_add.2 (Nat.ceil_lt_add_one hpos.le), Nat.le_ceil _, numHashes_cast _ n⟩

/-- Settles O55: the ceiling keeps the order. -/
theorem sizingIsMonotone : Obligations.SizingIsMonotone :=
  fun _ _ n h0 hpq _ _ => Nat.ceil_mono (bitsBeforeCeil_anti h0 hpq n)

/-! ### The worked example (R109) -/

theorem log_hundredth : Real.log (1 / 100) = -(2 * (Real.log 2 + Real.log 5)) := by
  rw [← Real.log_ten_eq, one_div, Real.log_inv, show (100 : ℝ) = 10 ^ 2 by norm_num, Real.log_pow]
  norm_num

/-- `9585 < 1000 * ln 100 / (ln 2)^2 ≤ 9586`, from the bounds of `ln 2` and `ln 5` to nine places. -/
theorem numBits_worked : numBits (1 / 100) 1000 = 9586 := by
  have hlo := Real.log_two_gt_d9
  have hhi := Real.log_two_lt_d9
  have hlo5 := Real.log_five_gt_d9
  have hhi5 := Real.log_five_lt_d9
  have hpos : 0 < Real.log 2 := Real.log_pos one_lt_two
  have hsq : 0 < Real.log 2 ^ 2 := pow_pos hpos 2
  have hsqlo : (0.6931471803 : ℝ) ^ 2 ≤ Real.log 2 ^ 2 := pow_le_pow_left₀ (by norm_num) hlo.le 2
  have hsqhi : Real.log 2 ^ 2 ≤ (0.6931471808 : ℝ) ^ 2 := pow_le_pow_left₀ hpos.le hhi.le 2
  rw [numBits, bitsBeforeCeil, log_hundredth, Nat.ceil_eq_iff (by norm_num), lt_div_iff₀ hsq, div_le_iff₀ hsq]
  push_cast
  constructor
  · linarith
  · linarith

/-- `6.5 ≤ (9586 / 1000) * ln 2 < 7.5`. -/
theorem numHashes_worked : numHashes 9586 1000 = 7 := by
  have hlo := Real.log_two_gt_d9
  have hhi := Real.log_two_lt_d9
  have hround : round (((9586 : ℕ) : ℝ) / (1000 : ℕ) * Real.log 2) = 7 := by
    rw [round_eq, Int.floor_eq_iff]
    push_cast
    constructor
    · linarith
    · linarith
  rw [numHashes, hround]
  rfl

/-- Settles O56, and the command carries the two numbers, which its fields hold. -/
theorem sizingWorkedExample : Obligations.SizingWorkedExample := by
  have hs : sizing (some (1 / 100)) 1000 = .ok (9586, 7) := by
    rw [sizing_of_domain (by norm_num) (by norm_num) (by norm_num), numBits_worked, numHashes_worked]
  exact ⟨hs, fun x y => (withRate_of_ok hs .B x y).trans (if_neg (by decide))⟩

end Sys2Proof.Machine

/-! SUPPORT. Proofs of the statements of the index generator family: the index formula (spec/41_index_generator.md R130 to
R133, R141), the hardware form (R138), and the internal interface with the query that stops early (R139, R134, R135). -/

namespace Sys2Proof.Machine

/-! ### The formula (R131, R133, R141) -/

theorem getElem?_indices {cfg : Config} {r : UnitRegs} {i : Nat} (item : List Byte) (hi : i < r.k.toNat) :
    (indices cfg r item)[i]? = some (idx cfg r item i) := by
  simp [indices, hi]

/-- Settles O38: each index is the formula's, whose last step is a reduction modulo `M`. -/
theorem indicesAreInRange : Obligations.IndicesAreInRange :=
  fun r item hm => ⟨length_indices Config.hw r item, fun _ => lt_of_mem_indices hm, fun _ => getElem?_indices item⟩

/-- Settles O39, each row of the table by computing it. -/
theorem workedIndexValues : Obligations.WorkedIndexValues := by
  unfold Obligations.WorkedIndexValues
  decide

/-! ### The recurrence (R138) -/

theorem indexFormula_zero (h1 h2 : Word) (m : Nat) : indexFormula h1 h2 m 0 = h1.toNat % m := by
  simp [indexFormula]

/-- `a_i` of the hardware form is index number `i`. -/
theorem iterate_indexStep (h1 h2 : Word) {m : Nat} (hm : 1 ≤ m) (i : Nat) :
    (indexStep m (h2.toNat % m))^[i] (h1.toNat % m) = indexFormula h1 h2 m i := by
  induction i with
  | zero => exact (indexFormula_zero h1 h2 m).symm
  | succ i ih => rw [Function.iterate_succ_apply', ih, indexStep_indexFormula h1 h2 i hm]

/-! ### The sequence after `i` times `next` (R139) -/

section
variable {h1 h2 : Word} {m : BitVec 32} {k : BitVec 8} (hm : 1 ≤ m.toNat) (hk : 1 ≤ k.toNat)
include hm hk

/-- After `i` times `next` the indexer shows index number `i`. -/
theorem iterate_indexerNext_start {i : Nat} (hi : i < k.toNat) :
    indexerNext^[i] (indexerStart h1 h2 m k) = indexerAt h1 h2 m k i := by
  induction i with
  | zero => exact indexerStart_eq hk
  | succ i ih => rw [Function.iterate_succ_apply', ih (by omega), indexerNext_at hm hk, if_pos hi]

/-- `k` times `next` end the sequence: the last one is given at index number `k - 1`. -/
theorem iterate_indexerNext_end : indexerNext^[k.toNat] (indexerStart h1 h2 m k) = indexerIdle := by
  obtain ⟨j, hj⟩ : ∃ j, k.toNat = j + 1 := ⟨k.toNat - 1, by omega⟩
  rw [hj, Function.iterate_succ_apply', iterate_indexerNext_start hm hk (by omega), indexerNext_at hm hk,
    if_neg (by omega)]

/-- From index number `i` on, a consumer of up to `n` indices is shown the formula's numbers `i` to `i + n - 1`. -/
theorem indexerRun_iterate (n : Nat) {i : Nat} (hi : i + n ≤ k.toNat) :
    indexerRun n (indexerNext^[i] (indexerStart h1 h2 m k)) = (List.range' i n).map (indexFormula h1 h2 m.toNat) := by
  induction n generalizing i with
  | zero => rfl
  | succ n ih =>
    have hrest := ih (i := i + 1) (by omega)
    rw [Function.iterate_succ_apply'] at hrest
    rw [iterate_indexerNext_start hm hk (by omega)] at hrest ⊢
    simp [indexerRun, hrest, indexerAt_idx hm, List.range'_succ]

/-- From index number `i` on, a query of the `n` indices left is the scan over the formula's, and ends in the idle indexer:
by `abort` at the first slot that fails the test, else by `next` at the last index. -/
theorem indexerScan_iterate (test : Nat → Bool) (n : Nat) {i : Nat} (hi : i + n = k.toNat) :
    indexerScan test n (indexerNext^[i] (indexerStart h1 h2 m k)) =
      (scan test ((List.range' i n).map (indexFormula h1 h2 m.toNat)), indexerIdle) := by
  induction n generalizing i with
  | zero =>
    obtain rfl : i = k.toNat := hi
    rw [iterate_indexerNext_end hm hk]
    rfl
  | succ n ih =>
    have hrest := ih (i := i + 1) (by omega)
    rw [Function.iterate_succ_apply'] at hrest
    rw [iterate_indexerNext_start hm hk (by omega)] at hrest ⊢
    rw [List.range'_succ, List.map_cons]
    cases ht : test (indexFormula h1 h2 m.toNat i) with
    | true => simp [indexerScan, scan, hrest, indexerAt_idx hm, ht]
    | false => simp [indexerScan, scan, indexerAbort, indexerAt_idx hm, ht]

end

/-- Settles O40: `i` times `next` leave the indexer at index number `i`, where it says `last` exactly for `i = k - 1`. -/
theorem hardwareIndexerIsTheFormula : Obligations.HardwareIndexerIsTheFormula := by
  refine ⟨fun h1 h2 m i hm => iterate_indexStep h1 h2 hm i, fun h1 h2 m k hm hk => ⟨fun n hn => ?_, fun i hi => ?_⟩⟩
  · rw [List.range_eq_range']
    exact indexerRun_iterate hm hk n (i := 0) (by omega)
  · rw [iterate_indexerNext_start hm hk hi]
    have hidx := indexerAt_idx (h1 := h1) (h2 := h2) (k := k) hm i
    have hlast := indexerAt_last (h1 := h1) (h2 := h2) (m := m) (k := k) i
    exact ⟨rfl, hidx, hidx.trans_lt (Nat.mod_lt _ hm), hlast.trans (by omega)⟩

/-! ### The requests (R139) -/

section
variable (x : IndexerState) {i : IndexerIn}

theorem indexerEdge_start (hs : i.start = true) : indexerEdge x i = indexerStart i.h1 i.h2 i.m i.k := if_pos hs

theorem indexerEdge_abort (hs : i.start = false) (ha : i.abort = true) : indexerEdge x i = indexerIdle := by
  simp [indexerEdge, indexerAbort, hs, ha]

theorem indexerEdge_next (hs : i.start = false) (ha : i.abort = false) (hn : i.next = true) :
    indexerEdge x i = indexerNext x := by
  simp [indexerEdge, hs, ha, hn]

theorem indexerEdge_no_request (hs : i.start = false) (ha : i.abort = false) (hn : i.next = false) :
    indexerEdge x i = x := by
  simp [indexerEdge, hs, ha, hn]

end

/-- Settles O58: the query from index number 0 on, and what an edge makes of each request. -/
theorem indexerServesTheScan : Obligations.IndexerServesTheScan := by
  refine ⟨fun test h1 h2 m k hm hk => ⟨?_, iterate_indexerNext_end hm hk⟩, fun x i =>
    ⟨indexerEdge_start x, fun hs ha => ?_, indexerEdge_next x, indexerEdge_no_request x⟩⟩
  · rw [List.range_eq_range']
    exact indexerScan_iterate hm hk test k.toNat (i := 0) (by omega)
  · rw [indexerEdge_abort x hs ha]
    rfl

end Sys2Proof.Machine

/-! SUPPORT. Proofs of the statements of the standard filter's family: `INS.B` (spec/42_bitset_filter.md R151), `QRY.B`
(R152), no false negatives over a lifetime of unit B (R154), how inserts combine (R155), and the commands that only read
(R156, 43_counting_filter R178). -/

namespace Sys2Proof.Machine

/-! ### The errors of a command on an item (60_exceptions R205, R206) -/

section
variable {cfg : Config} {op : BitVec 4} {u : UnitId} {len : BitVec 16} {payload : List Word} {s : State}
  {body : List Nat → Host.Outcome State Fault Refusal}

/-- An item that is too long is the first error found. -/
theorem itemCommand_tooLong (h : cfg.itemMax < len.toNat) :
    itemCommand cfg op u len payload s body = raise op u .itemLen s :=
  if_pos h

theorem itemCommand_unconstructed (hlen : len.toNat ≤ cfg.itemMax) (hc : (s.regs u).constr = false) :
    itemCommand cfg op u len payload s body = raise op u .notConstructed s := by
  rw [itemCommand, if_neg (Nat.not_lt.2 hlen), hc]
  rfl

/-- Whether a command on an item is accepted depends on its unit's registers alone. -/
theorem Accepts.of_regs_eq {t : State} (h : Accepts u len s) (hr : t.regs u = s.regs u) : Accepts u len t := by
  obtain ⟨hc, hsize, hlen⟩ := h
  exact ⟨by rw [hr, hc], sizeOk_iff.2 (by rw [hr]; exact sizeOk_iff.1 hsize), hlen⟩
end

/-- The error words of `INS.B` (R205, R206). -/
theorem insBError_word :
    Response.word { op := opIns, u := .B, code := errorNumber .itemLen } = 0x3004000000000000 ∧
    Response.word { op := opIns, u := .B, code := errorNumber .notConstructed } = 0x3005000000000000 := by decide

/-- The error words of `QRY.B` (R205, R206). -/
theorem qryBError_word :
    Response.word { op := opQry, u := .B, code := errorNumber .itemLen } = 0x4004000000000000 ∧
    Response.word { op := opQry, u := .B, code := errorNumber .notConstructed } = 0x4005000000000000 := by decide

/-! ### The loop of `INS.B` -/

theorem setBits_wf {js : List Nat} {a : Memory 1} (ha : Memory.wf a = true) : Memory.wf (setBits js a) = true :=
  setBits_induct (P := fun a => Memory.wf a = true) (fun j _ _ h => Memory.write_wf h j 1) ha

/-- A bit that is 1 stays 1. -/
theorem read_setBits_of_one {js : List Nat} {a : Memory 1} {j : Nat} (h : Memory.read a j = 1) :
    Memory.read (setBits js a) j = 1 := by
  rw [read_setBits, h, ite_self]

/-- Setting the same bits again changes nothing. -/
theorem setBits_idem {a : Memory 1} (ha : Memory.wf a = true) (js : List Nat) :
    setBits js (setBits js a) = setBits js a := by
  refine Memory.ext (setBits_wf (setBits_wf ha)) (setBits_wf ha) fun j => ?_
  simp only [read_setBits]
  split
  · rfl
  · rfl

/-- Two lists of bits can be set in either order. -/
theorem setBits_comm {a : Memory 1} (ha : Memory.wf a = true) (js ks : List Nat) :
    setBits ks (setBits js a) = setBits js (setBits ks a) := by
  refine Memory.ext (setBits_wf (setBits_wf ha)) (setBits_wf (setBits_wf ha)) fun j => ?_
  simp only [read_setBits]
  split
  · exact (ite_self _).symm
  · rfl

/-! ### What `INS.B` does to unit B -/

/-- The bits `INS.B` of an item sets where unit B's registers are `r`: none where it raises an error (R155). -/
def insertedBits (r : UnitRegs) (len : BitVec 16) (payload : List Word) : List Nat :=
  if Config.hw.itemMax < len.toNat ∨ r.constr = false then [] else indices Config.hw r (itemBytes len payload)

/-- Whatever `INS.B` answers, it leaves the registers and sets those bits. -/
theorem exec_insB_unitB {len : BitVec 16} {p : List Word} {s t : State} (h : exec (.insB len p) s = .next t) :
    t.b = s.b ∧ t.arr = setBits (insertedBits s.b len p) s.arr := by
  simp only [exec, execInsB, insB] at h
  rcases itemCommand_cases (op := opIns) (u := .B) (len := len) (payload := p) (s := s) with
    ⟨-, -, hfault⟩ | ⟨e, herr, hraise⟩ | ⟨⟨hc, -, hlen⟩, hbody⟩
  · rw [hfault] at h
    cases h
  · rw [hraise] at h
    cases h
    have hnone : insertedBits s.b len p = [] :=
      if_pos (herr.imp And.right fun ⟨_, _, hc⟩ => hc)
    rw [hnone]
    exact ⟨rfl, rfl⟩
  · rw [hbody] at h
    cases h
    have hall : insertedBits s.b len p = indices Config.hw s.b (itemBytes len p) :=
      if_neg (not_or.2 ⟨Nat.not_lt.2 hlen, ne_false_of_eq_true hc⟩)
    rw [hall]
    exact ⟨rfl, rfl⟩

/-- An `INS.B` that responded without error was accepted, and the bit of each index of the item is 1 after it. -/
theorem exec_insB_of_code_zero {len : BitVec 16} {p : List Word} {s t : State} {r : Word}
    (h : exec (.insB len p) s = .next t) (hr : t.rsp = some r) (hcode : codeOf r = 0) :
    Accepts .B len t ∧ ∀ i < t.b.k.toNat, Memory.read t.arr (idx Config.hw t.b (itemBytes len p) i) = 1 := by
  rcases exec_cases h with ⟨e, rfl⟩ | ⟨_, ⟨ha, rfl⟩, rfl⟩
  · cases hr
    rw [codeOf_word] at hcode
    exact absurd hcode (errorNumber_ne_zero e)
  · exact ⟨ha.of_regs_eq rfl, fun i hi => (read_setBits ..).trans (if_pos (mem_indices.2 ⟨i, hi, rfl⟩))⟩

/-! ### What `QRY.B` answers (R152) -/

theorem bitLookup_of_one {a : Memory 1} {j : Nat} (h : Memory.read a j = 1) : bitLookup a j = true := by
  rw [bitLookup, h]; rfl

theorem bitLookup_of_zero {a : Memory 1} {j : Nat} (h : Memory.read a j = 0) : bitLookup a j = false := by
  rw [bitLookup, h]; rfl

section
variable {len : BitVec 16} {p : List Word} {s : State} (ha : Accepts .B len s)
include ha

/-- Every bit of the item is 1. -/
theorem exec_qryB_of_all_one
    (h : ∀ i < s.b.k.toNat, Memory.read s.arr (idx Config.hw s.b (itemBytes len p) i) = 1) :
    exec (.qryB len p) s =
      .next { s with rsp := some (Response.word { op := opQry, u := .B, res := true, pk := s.b.k }) } := by
  have hscan : scan (bitLookup s.arr) (indices Config.hw s.b (itemBytes len p)) = (true, s.b.k.toNat) :=
    scan_indices_all fun i hi => bitLookup_of_one (h i hi)
  rw [exec_of_effect (i := .qryB len p) ⟨ha, rfl⟩, successResponse, hscan, BitVec.ofNat_toNat, BitVec.setWidth_eq]

/-- Index number `i` is the first whose bit is 0. -/
theorem exec_qryB_of_first_zero {i : Nat} (hi : i < s.b.k.toNat)
    (h : ∀ i' < i, Memory.read s.arr (idx Config.hw s.b (itemBytes len p) i') = 1)
    (h0 : Memory.read s.arr (idx Config.hw s.b (itemBytes len p) i) = 0) :
    exec (.qryB len p) s =
      .next { s with rsp := some (Response.word { op := opQry, u := .B, pk := BitVec.ofNat 8 (i + 1) }) } := by
  have hscan : scan (bitLookup s.arr) (indices Config.hw s.b (itemBytes len p)) = (false, i + 1) :=
    scan_indices_first hi (fun i' hi' => bitLookup_of_one (h i' hi')) (bitLookup_of_zero h0)
  rw [exec_of_effect (i := .qryB len p) ⟨ha, rfl⟩, successResponse, hscan]
end

/-! ### What a step keeps of a live unit B (R154, R155) -/

/-- A live unit B loses no bit to an effect: `CONS.B`, which alone clears one, has none on it. -/
theorem Effect.bits_kept {i : Instr} {s t : State} (h : Effect i s t) (hc : s.b.constr = true) {j : Nat}
    (hj : Memory.read s.arr j = 1) : Memory.read t.arr j = 1 := by
  rcases h.unitB with ⟨-, ha⟩ | ⟨_, _, _, _, -, ⟨hfree, -⟩, -⟩ | ⟨-, -, ha⟩ | ⟨_, _, -, -, -, ha⟩
  · rw [ha, hj]
  · rw [hc] at hfree; cases hfree
  · rw [ha, hj]
  · rw [ha]; exact read_setBits_of_one hj

/-- Of a live unit B only `DSTR.B` writes a register. -/
theorem Effect.regsB_kept {i : Instr} {s t : State} (h : Effect i s t) (hc : s.b.constr = true) (hi : i ≠ .dstrB) :
    t.b = s.b := by
  rcases h.unitB with ⟨hb, -⟩ | ⟨_, _, _, _, -, ⟨hfree, -⟩, -⟩ | ⟨hd, -⟩ | ⟨_, _, -, -, hb, -⟩
  · exact hb
  · rw [hc] at hfree; cases hfree
  · exact absurd hd hi
  · exact hb

theorem step_bits_kept {s t : State} (h : step s = .next t) (hc : s.b.constr = true) {j : Nat}
    (hj : Memory.read s.arr j = 1) : Memory.read t.arr j = 1 := by
  rcases step_arch_cases h with rfl | ⟨-, -, -, -, ha, -⟩ | ⟨_, _, _, t', -, -, he, -, -, -, -, ha, -⟩
  · exact hj
  · rw [← ha, hj]
  · rw [← ha]; exact he.bits_kept hc hj

theorem step_regsB_kept {s t : State} (h : step s = .next t) (hc : s.b.constr = true) (hlive : ¬ endsLifeB s) :
    t.b = s.b := by
  rcases step_cases h with ⟨hrst, -⟩ | ⟨-, -, -, rfl⟩ | ⟨hd, p, ⟨-, -, hready⟩, ⟨i, hdec, hex⟩ | ⟨_, _, -, -, rfl⟩⟩
  · exact absurd (.inl hrst) hlive
  · rfl
  · have hi : i ≠ .dstrB := fun e => hlive (.inr ⟨hd, p, hready, e ▸ hdec⟩)
    rcases exec_cases hex with ⟨e, rfl⟩ | ⟨t', he, rfl⟩
    · rfl
    · exact he.regsB_kept hc hi
  · rfl

/-- Over a lifetime the registers of unit B stand, and a bit that is 1 stays 1. -/
theorem LiveB.kept {s t : State} (h : LiveB s t) (hc : s.b.constr = true) :
    t.b = s.b ∧ ∀ j, Memory.read s.arr j = 1 → Memory.read t.arr j = 1 := by
  induction h with
  | start => exact ⟨rfl, fun _ hj => hj⟩
  | edge t u _ hlive hstep ih =>
    obtain ⟨hb, hbits⟩ := ih
    have hct : t.b.constr = true := by rw [hb, hc]
    exact ⟨(step_regsB_kept hstep hct hlive).trans hb, fun j hj => step_bits_kept hstep hct (hbits j hj)⟩

/-! ### The commands that only read (R156, 43_counting_filter R178) -/

/-- A command whose effect is none changes the response alone, whatever it answers. -/
theorem exec_changes_response_alone {i : Instr} {s t : State} (h : exec i s = .next t)
    (hpure : ∀ t', Effect i s t' → t' = s) : t = { s with rsp := t.rsp } := by
  rcases exec_cases h with ⟨e, rfl⟩ | ⟨t', he, rfl⟩
  · rfl
  · rw [hpure t' he]

/-! ### The obligations of the standard filter -/

/-- Settles O29: the insert set the item's bits, the lifetime keeps them and the registers, and a query finds them. -/
theorem noFalseNegativesOnUnitB : Obligations.NoFalseNegativesOnUnitB := by
  intro len p q s t u r hins hr hcode hlive hitem
  obtain ⟨ha, hset⟩ := exec_insB_of_code_zero hins hr hcode
  obtain ⟨hb, hbits⟩ := hlive.kept ha.1
  refine exec_qryB_of_all_one (ha.of_regs_eq hb) fun i hi => ?_
  rw [hb] at hi ⊢
  rw [hitem]
  exact hbits _ (hset i hi)

/-- Settles O27: the effect of `INS.B`, and its two errors in their order. -/
theorem insBSetsTheBits : Obligations.InsBSetsTheBits := by
  intro len payload s
  refine ⟨fun hf => decode_of_encode (i := .insB len payload) hf rfl, fun ha => ?_, fun cfg hlen => ?_,
    fun hlen hc => ?_⟩
  · refine ⟨_, exec_of_effect (i := .insB len payload) ⟨ha, rfl⟩, rfl, fun j => ?_⟩
    simp only [read_setBits, mem_indices]
  · rw [insB, itemCommand_tooLong hlen, raise_eq, insBError_word.1]
  · rw [exec, execInsB, insB, itemCommand_unconstructed (u := .B) hlen hc, raise_eq, insBError_word.2]

/-- Settles O28: the two answers of the scan, and the two errors in their order. -/
theorem qryBAnswers : Obligations.QryBAnswers := by
  intro len payload s
  refine ⟨fun hf => decode_of_encode (i := .qryB len payload) hf rfl,
    fun ha => ⟨exec_qryB_of_all_one ha, fun i => exec_qryB_of_first_zero ha⟩, fun cfg hlen => ?_, fun hlen hc => ?_⟩
  · rw [qryB, itemCommand_tooLong hlen, raise_eq, qryBError_word.1]
  · rw [exec, execQryB, qryB, itemCommand_unconstructed (u := .B) hlen hc, raise_eq, qryBError_word.2]

/-- Settles O30: an insert sets bits that depend on the item and the registers alone, and the registers stand. -/
theorem insertsOnUnitBCommute : Obligations.InsertsOnUnitBCommute := by
  refine ⟨fun len p s t u hwf hst htu => ?_, fun len len' p p' s t u t' u' hwf hst htu hst' htu' => ?_,
    fun s t j hc h => step_bits_kept h hc⟩
  · obtain ⟨hb, harr⟩ := exec_insB_unitB hst
    rw [(exec_insB_unitB htu).2, hb, harr, setBits_idem hwf]
  · obtain ⟨hb, harr⟩ := exec_insB_unitB hst
    obtain ⟨hb', harr'⟩ := exec_insB_unitB hst'
    rw [(exec_insB_unitB htu).2, (exec_insB_unitB htu').2, hb, hb', harr, harr', setBits_comm hwf]

/-- Settles O37: the effect of each of the four commands is none. -/
theorem queriesArePure : Obligations.QueriesArePure := by
  intro len p s t h
  rcases h with h | h | h | h
  · exact exec_changes_response_alone h fun _ he => he.2
  · exact exec_changes_response_alone h fun _ he => he.2
  · exact exec_changes_response_alone h fun _ he => he
  · exact exec_changes_response_alone h fun _ he => he

end Sys2Proof.Machine

/-! SUPPORT. Proofs of the statements of the counting filter's family: `INS.C` (spec/43_counting_filter.md R171),
`QRY.C` (R172), `REM.C` (R173), saturation (R174), the round trip of an insert and a remove (R175), and honest use
(R177). -/

namespace Sys2Proof.Machine

/-! ### The loops of `INS.C` and `REM.C` -/

theorem incAll_wf {js : List Nat} {a : Memory 4} (ha : Memory.wf a = true) : Memory.wf (incAll js a).1 = true :=
  incAll_induct (P := fun a => Memory.wf a = true) (fun j _ _ v h => Memory.write_wf h j v) ha

/-- A counter that passes 15 is one of those visited, since none is above 15 before. -/
theorem incAll_flag_iff {js : List Nat} {a : Memory 4} :
    (incAll js a).2 = true ↔ ∃ j, 15 < (Memory.read a j).toNat + js.count j := by
  rw [incAll_flag]
  refine exists_congr fun j => and_iff_right_of_imp fun h => List.count_pos_iff.1 ?_
  have := (Memory.read a j).isLt
  omega

theorem incAll_flag_eq_false {js : List Nat} {a : Memory 4} :
    (incAll js a).2 = false ↔ ∀ j, (Memory.read a j).toNat + js.count j ≤ 15 := by
  rw [← Bool.not_eq_true, incAll_flag_iff]
  simp

/-- A counter that would pass below 0 is one of those visited. -/
theorem decAll_flag_iff {js : List Nat} {a : Memory 4} (ha : Memory.wf a = true) :
    (decAll js a).2 = true ↔ ∃ j, (Memory.read a j).toNat < js.count j := by
  rw [decAll_flag js ha]
  exact exists_congr fun j => and_iff_right_of_imp fun h => List.count_pos_iff.1 (by omega)

theorem decAll_flag_eq_false {js : List Nat} {a : Memory 4} (ha : Memory.wf a = true) :
    (decAll js a).2 = false ↔ ∀ j, js.count j ≤ (Memory.read a j).toNat := by
  rw [← Bool.not_eq_true, decAll_flag_iff ha]
  simp

/-- Where no counter saturated, each went up by the whole of its multiplicity. -/
theorem read_incAll_of_not_sat {js : List Nat} {a : Memory 4} (h : (incAll js a).2 = false) (j : Nat) :
    (Memory.read (incAll js a).1 j).toNat = (Memory.read a j).toNat + js.count j := by
  rw [read_incAll, min_eq_right (incAll_flag_eq_false.1 h j)]

/-- An insert that did not saturate is undone by the remove of the same indices, which meets no 0 (R175). -/
theorem decAll_incAll {js : List Nat} {a : Memory 4} (ha : Memory.wf a = true) (h : (incAll js a).2 = false) :
    (decAll js (incAll js a).1).1 = a ∧ (decAll js (incAll js a).1).2 = false := by
  have hread := read_incAll_of_not_sat h
  constructor
  · refine Memory.ext (decAll_wf (incAll_wf ha)) ha fun j => BitVec.eq_of_toNat_eq ?_
    rw [read_decAll j js (incAll_wf ha), hread, Nat.add_sub_cancel]
  · refine (decAll_flag_eq_false (incAll_wf ha)).2 fun j => ?_
    rw [hread]
    exact Nat.le_add_left _ _

/-- An insert at counters that are all 15 leaves the array (R174). -/
theorem incAll_of_full {js : List Nat} {a : Memory 4} (ha : Memory.wf a = true)
    (h : ∀ j ∈ js, Memory.read a j = 15) : (incAll js a).1 = a := by
  refine Memory.ext (incAll_wf ha) ha fun j => BitVec.eq_of_toNat_eq ?_
  rw [read_incAll]
  by_cases hj : j ∈ js
  · rw [h j hj]
    exact min_eq_left (Nat.le_add_right 15 _)
  · have := (Memory.read a j).isLt
    rw [List.count_eq_zero_of_not_mem hj]
    omega

/-- An insert that visits a counter at 15 saturates. -/
theorem incAll_flag_of_full {js : List Nat} {a : Memory 4} {j : Nat} (hj : j ∈ js) (h : Memory.read a j = 15) :
    (incAll js a).2 = true := by
  have := List.count_pos_iff.2 hj
  exact incAll_flag_iff.2 ⟨j, by rw [h]; exact Nat.lt_add_of_pos_right this⟩

/-! ### The commands of unit C -/

theorem idx_mem_indices {cfg : Config} {r : UnitRegs} {i : Nat} (item : List Byte) (hi : i < r.k.toNat) :
    idx cfg r item i ∈ indices cfg r item :=
  mem_indices.2 ⟨i, hi, rfl⟩

/-- The error words of `INS.C` (R205, R206). -/
theorem insCError_word :
    Response.word { op := opIns, u := .C, code := errorNumber .itemLen } = 0x3804000000000000 ∧
    Response.word { op := opIns, u := .C, code := errorNumber .notConstructed } = 0x3805000000000000 := by decide

/-- The error words of `QRY.C` (R205, R206). -/
theorem qryCError_word :
    Response.word { op := opQry, u := .C, code := errorNumber .itemLen } = 0x4804000000000000 ∧
    Response.word { op := opQry, u := .C, code := errorNumber .notConstructed } = 0x4805000000000000 := by decide

/-- The error words of `REM.C` (R205, R206). -/
theorem remCError_word :
    Response.word { op := opRem, u := .C, code := errorNumber .itemLen } = 0x5804000000000000 ∧
    Response.word { op := opRem, u := .C, code := errorNumber .notConstructed } = 0x5805000000000000 := by decide

/-- A response word determines its `SAT` bit (30_encoding R80). -/
theorem Response.sat_eq_of_word_eq {r r' : Response} (h : r.word = r'.word) : r.sat = r'.sat := by
  rw [← BitVec.ofBool_eq_iff_eq, ← r.sat_word, ← r'.sat_word, h]

/-- A command that may have its effect answers no other state. -/
theorem Effect.eq_of_exec {i : Instr} {s t t' : State} (he : Effect i s t') (h : exec i s = .next t) :
    t = { t' with rsp := some (successResponse i s).word } :=
  (Host.Outcome.next.inj ((exec_of_effect he).symm.trans h)).symm

theorem cntNonzero_of_ne_zero {a : Memory 4} {j : Nat} (h : Memory.read a j ≠ 0) : cntNonzero a j = true :=
  bne_iff_ne.2 h

theorem cntNonzero_of_zero {a : Memory 4} {j : Nat} (h : Memory.read a j = 0) : cntNonzero a j = false := by
  rw [cntNonzero, h]; rfl

/-- The answer of a scan alone: whether every slot passes. -/
theorem scan_fst (test : Nat → Bool) (js : List Nat) : (scan test js).1 = js.all test := by
  induction js with
  | nil => rfl
  | cons j js ih =>
    rw [List.all_cons, ← ih, scan]
    cases test j with
    | true => rfl
    | false => rfl

/-- Where a counter of the item is 0 the answer is 0 (R172). -/
theorem res_qryC_of_zero {len : BitVec 16} {p : List Word} {s : State} {i : Nat} (hi : i < s.c.k.toNat)
    (h0 : Memory.read s.cnt (idx Config.hw s.c (itemBytes len p) i) = 0) :
    (successResponse (.qryC len p) s).word.extractLsb' 32 1 = 0 := by
  have hres : (scan (cntNonzero s.cnt) (indices Config.hw s.c (itemBytes len p))).1 = false := by
    rw [scan_fst, List.all_eq_false]
    exact ⟨_, idx_mem_indices _ hi, ne_true_of_eq_false (cntNonzero_of_zero h0)⟩
  rw [Response.res_word, successResponse, hres]
  rfl

section
variable {len : BitVec 16} {p : List Word} {s : State} (ha : Accepts .C len s)
include ha

/-- No counter of the item is 0. -/
theorem exec_qryC_of_all_nonzero
    (h : ∀ i < s.c.k.toNat, Memory.read s.cnt (idx Config.hw s.c (itemBytes len p) i) ≠ 0) :
    exec (.qryC len p) s =
      .next { s with rsp := some (Response.word { op := opQry, u := .C, res := true, pk := s.c.k }) } := by
  have hscan : scan (cntNonzero s.cnt) (indices Config.hw s.c (itemBytes len p)) = (true, s.c.k.toNat) :=
    scan_indices_all fun i hi => cntNonzero_of_ne_zero (h i hi)
  rw [exec_of_effect (i := .qryC len p) ⟨ha, rfl⟩, successResponse, hscan, BitVec.ofNat_toNat, BitVec.setWidth_eq]

/-- Index number `i` is the first whose counter is 0. -/
theorem exec_qryC_of_first_zero {i : Nat} (hi : i < s.c.k.toNat)
    (h : ∀ i' < i, Memory.read s.cnt (idx Config.hw s.c (itemBytes len p) i') ≠ 0)
    (h0 : Memory.read s.cnt (idx Config.hw s.c (itemBytes len p) i) = 0) :
    exec (.qryC len p) s =
      .next { s with rsp := some (Response.word { op := opQry, u := .C, pk := BitVec.ofNat 8 (i + 1) }) } := by
  have hscan : scan (cntNonzero s.cnt) (indices Config.hw s.c (itemBytes len p)) = (false, i + 1) :=
    scan_indices_first hi (fun i' hi' => cntNonzero_of_ne_zero (h i' hi')) (cntNonzero_of_zero h0)
  rw [exec_of_effect (i := .qryC len p) ⟨ha, rfl⟩, successResponse, hscan]

/-- A query of unit C reads the registers and the counters alone. -/
theorem exec_qryC_congr {u : State} (hc : u.c = s.c) (hcnt : u.cnt = s.cnt) :
    exec (.qryC len p) u = .next { u with rsp := some (successResponse (.qryC len p) s).word } := by
  rw [exec_of_effect (i := .qryC len p) ⟨ha.of_regs_eq hc, rfl⟩, successResponse, successResponse, hc, hcnt]

end

/-! ### Saturation (R174) -/

/-- `INS.C` lowers no counter. -/
theorem exec_insC_counter_le {len : BitVec 16} {p : List Word} {s t : State} (h : exec (.insC len p) s = .next t)
    (j : Nat) : (Memory.read s.cnt j).toNat ≤ (Memory.read t.cnt j).toNat := by
  rcases exec_cases h with ⟨e, rfl⟩ | ⟨_, ⟨-, rfl⟩, rfl⟩
  · exact le_rfl
  · rw [read_incAll]
    exact le_min (Nat.le_of_lt_succ (Memory.read s.cnt j).isLt) (Nat.le_add_right _ _)

/-- `REM.C` raises no counter. -/
theorem exec_remC_counter_le {len : BitVec 16} {p : List Word} {s t : State} (hwf : Memory.wf s.cnt = true)
    (h : exec (.remC len p) s = .next t) (j : Nat) : (Memory.read t.cnt j).toNat ≤ (Memory.read s.cnt j).toNat := by
  rcases exec_cases h with ⟨e, rfl⟩ | ⟨_, ⟨-, rfl⟩, rfl⟩
  · exact le_rfl
  · rw [read_decAll j _ hwf]
    exact Nat.sub_le _ _

/-- After `n` inserts of an item each counter is up by `n` times its multiplicity, not past 15; the registers stand. -/
theorem InsertsC.counters {len : BitVec 16} {p : List Word} {n : Nat} {s t : State} (h : InsertsC len p n s t)
    (ha : Accepts .C len s) :
    t.c = s.c ∧ (Memory.wf s.cnt = true → Memory.wf t.cnt = true) ∧
    ∀ j, (Memory.read t.cnt j).toNat =
      min 15 ((Memory.read s.cnt j).toNat + n * (indices Config.hw s.c (itemBytes len p)).count j) := by
  induction h with
  | zero =>
    refine ⟨rfl, id, fun j => ?_⟩
    have := (Memory.read s.cnt j).isLt
    omega
  | succ n s t u _ hins ih =>
    obtain ⟨hc, hwf, hread⟩ := ih ha
    obtain rfl := Effect.eq_of_exec (i := .insC len p) ⟨ha.of_regs_eq hc, rfl⟩ hins
    refine ⟨hc, fun h => incAll_wf (hwf h), fun j => ?_⟩
    rw [read_incAll, hread, hc, Nat.succ_mul]
    omega

/-- After 15 or more inserts of an item each of its counters is 15. -/
theorem InsertsC.full {len : BitVec 16} {p : List Word} {n : Nat} {s t : State} (h : InsertsC len p n s t)
    (ha : Accepts .C len s) (hn : 15 ≤ n) {j : Nat} (hj : j ∈ indices Config.hw s.c (itemBytes len p)) :
    Memory.read t.cnt j = 15 := by
  obtain ⟨-, -, hread⟩ := h.counters ha
  have hmany := Nat.mul_le_mul hn (List.count_pos_iff.2 hj)
  refine BitVec.eq_of_toNat_eq ?_
  rw [hread]
  exact min_eq_left (hmany.trans (Nat.le_add_left _ _))

/-! ### The sum of the multiplicities (R177) -/

section
variable (r : UnitRegs) (n : List Byte →₀ ℕ) (x : List Byte) (j : Nat)

theorem tallyAt_zero : tallyAt r 0 j = 0 := Finsupp.sum_zero_index

theorem tallyAt_add_single :
    tallyAt r (n + Finsupp.single x 1) j = tallyAt r n j + (indices Config.hw r x).count j := by
  unfold tallyAt
  rw [Finsupp.sum_add_index' (by simp) (by simp [Nat.add_mul]), Finsupp.sum_single_index (by simp), Nat.one_mul]

/-- One copy of a present item taken away. -/
theorem tallyAt_sub_single {n : List Byte →₀ ℕ} {x : List Byte} (hx : 1 ≤ n x) :
    tallyAt r (n - Finsupp.single x 1) j + (indices Config.hw r x).count j = tallyAt r n j := by
  rw [← tallyAt_add_single, tsub_add_cancel_of_le (Finsupp.single_le_iff.2 hx)]

/-- A present item's multiplicity is part of the sum. -/
theorem count_le_tallyAt {n : List Byte →₀ ℕ} {x : List Byte} (hx : 1 ≤ n x) :
    (indices Config.hw r x).count j ≤ tallyAt r n j :=
  (Nat.le_add_left _ _).trans_eq (tallyAt_sub_single r j hx)
end

/-! ### The invariant of honest use -/

/-- Unit C with the registers `r` and the array `a` is live and holds the items of the tally `n`: each counter below `M`
is the sum of the multiplicities (R177). -/
structure HoldsTally (r : UnitRegs) (a : Memory 4) (n : List Byte →₀ ℕ) : Prop where
  live : r.constr = true
  size : 1 ≤ r.m.toNat ∧ r.m.toNat ≤ Config.hw.mMaxC
  canonical : Memory.wf a = true
  counters : ∀ j < r.m.toNat, (Memory.read a j).toNat = tallyAt r n j

section
variable {r : UnitRegs} {a : Memory 4} {n : List Byte →₀ ℕ} {x : List Byte}

theorem HoldsTally.accepts {s : State} (h : HoldsTally s.c s.cnt n) {len : BitVec 16}
    (hlen : len.toNat ≤ Config.hw.itemMax) : Accepts .C len s :=
  ⟨h.live, sizeOk_iff.2 h.size, hlen⟩

/-- `CONS.C` begins a lifetime with no items. -/
theorem holdsTally_constructed {k : BitVec 8} {m : BitVec 32} {seedA seedB : Word} (ha : Memory.wf a = true)
    (hm : m ≠ 0) (hmax : m.toNat ≤ Config.hw.mMaxC) :
    HoldsTally { constr := true, m := m, k := k, seedA := seedA, seedB := seedB } (Memory.clear m.toNat a) 0 where
  live := rfl
  size := ⟨by bv_omega, hmax⟩
  canonical := Memory.clear_wf ha _
  counters j hj := by rw [Memory.read_clear, if_pos hj, tallyAt_zero]; rfl

/-- An insert that did not saturate adds its item. -/
theorem HoldsTally.insert (h : HoldsTally r a n) (hsat : (incAll (indices Config.hw r x) a).2 = false) :
    HoldsTally r (incAll (indices Config.hw r x) a).1 (n + Finsupp.single x 1) where
  live := h.live
  size := h.size
  canonical := incAll_wf h.canonical
  counters j hj := by rw [read_incAll_of_not_sat hsat, h.counters j hj, tallyAt_add_single]

/-- The remove of a present item takes it away. -/
theorem HoldsTally.remove (h : HoldsTally r a n) (hx : 1 ≤ n x) :
    HoldsTally r (decAll (indices Config.hw r x) a).1 (n - Finsupp.single x 1) where
  live := h.live
  size := h.size
  canonical := decAll_wf h.canonical
  counters j hj := by
    rw [read_decAll j _ h.canonical, h.counters j hj, ← tallyAt_sub_single r j hx, Nat.add_sub_cancel]

/-- No counter is below the multiplicity of a present item: at its indices it is the sum, elsewhere the multiplicity
is 0. -/
theorem HoldsTally.count_le (h : HoldsTally r a n) (hx : 1 ≤ n x) (j : Nat) :
    (indices Config.hw r x).count j ≤ (Memory.read a j).toNat := by
  by_cases hj : j ∈ indices Config.hw r x
  · rw [h.counters j (lt_of_mem_indices h.size.1 hj)]
    exact count_le_tallyAt r j hx
  · rw [List.count_eq_zero_of_not_mem hj]
    exact Nat.zero_le _

/-- The remove of a present item meets no 0. -/
theorem HoldsTally.remove_no_underflow (h : HoldsTally r a n) (hx : 1 ≤ n x) :
    (decAll (indices Config.hw r x) a).2 = false :=
  (decAll_flag_eq_false h.canonical).2 (h.count_le hx)

/-- No counter at an index of a present item is 0. -/
theorem HoldsTally.read_ne_zero (h : HoldsTally r a n) (hx : 1 ≤ n x) {i : Nat} (hi : i < r.k.toNat) :
    Memory.read a (idx Config.hw r x i) ≠ 0 := by
  have hpos := List.count_pos_iff.2 (idx_mem_indices (cfg := Config.hw) x hi)
  have hle := h.count_le hx (idx Config.hw r x i)
  intro h0
  rw [h0] at hle
  exact absurd (hpos.trans_le hle) (Nat.lt_irrefl 0)
end

/-! ### What an edge that keeps the tally leaves -/

/-- Of a live unit C only `DSTR.C`, and the inserts and removes that are accepted, write anything. -/
theorem Effect.unitC_kept {i : Instr} {s t : State} (h : Effect i s t) (hc : s.c.constr = true) (hi : keepsTally i) :
    t.c = s.c ∧ t.cnt = s.cnt ∧ t.ssat = s.ssat ∧ t.sunf = s.sunf := by
  rcases h.unitC with hkept | ⟨_, _, _, _, -, ⟨hfree, -⟩, -⟩ | ⟨rfl, -⟩ | ⟨_, _, rfl, ⟨-, -, hlen⟩, -⟩ |
    ⟨_, _, rfl, ⟨-, -, hlen⟩, -⟩
  · exact hkept
  · rw [hc] at hfree; cases hfree
  · exact hi.elim
  · exact absurd hlen (Nat.not_le.2 hi)
  · exact absurd hlen (Nat.not_le.2 hi)

theorem step_unitC_kept {s t : State} (h : step s = .next t) (hc : s.c.constr = true) (hk : edgeKeepsTally s) :
    t.c = s.c ∧ t.cnt = s.cnt ∧ t.sunf = s.sunf := by
  obtain ⟨hrst, hcmd⟩ := hk
  rcases step_cases h with ⟨hr, -⟩ | ⟨-, -, -, rfl⟩ | ⟨hd, p, ⟨-, -, hready⟩, ⟨i, hdec, hex⟩ | ⟨_, _, -, -, rfl⟩⟩
  · rw [hrst] at hr; cases hr
  · exact ⟨rfl, rfl, rfl⟩
  · rcases exec_cases hex with ⟨e, rfl⟩ | ⟨t', he, rfl⟩
    · exact ⟨rfl, rfl, rfl⟩
    · obtain ⟨htc, hcnt, -, hunf⟩ := he.unitC_kept hc (hcmd hd p i hready hdec)
      exact ⟨htc, hcnt, hunf⟩
  · exact ⟨rfl, rfl, rfl⟩

/-- The step at which a command runs that may have its effect. -/
theorem Effect.eq_of_step {s t t' : State} {h : Word} {words : List Word} {i : Instr} (he : Effect i (onEdge s) t')
    (hr : Runs s h words) (hd : decode h words = .ok i) (hstep : step s = .next t) :
    t = { t' with rsp := some (successResponse i (onEdge s)).word } := by
  rw [step_of_runs hr, hd] at hstep
  exact he.eq_of_exec hstep

/-- Every state of an honest lifetime holds its tally, and no removal has met 0. -/
theorem HonestC.holdsTally {s : State} {n : List Byte →₀ ℕ} (h : HonestC s n) :
    HoldsTally s.c s.cnt n ∧ s.sunf = false := by
  induction h with
  | fresh h words k m seedA seedB s t hwf hfree hr hd hstep hlive =>
    rw [step_of_runs hr, hd] at hstep
    rcases exec_cases hstep with ⟨e, rfl⟩ | ⟨_, ⟨⟨-, hm, -, hmax⟩, rfl⟩, rfl⟩
    · exact absurd hlive (ne_true_of_eq_false hfree)
    · exact ⟨holdsTally_constructed hwf hm hmax, rfl⟩
  | insert h words len payload s t n _ hr hd hlen hstep hsat ih =>
    obtain ⟨htally, hunf⟩ := ih
    obtain rfl := Effect.eq_of_step (i := .insC len payload) ⟨htally.accepts hlen, rfl⟩ hr hd hstep
    exact ⟨htally.insert (Bool.or_eq_false_iff.1 hsat).2, hunf⟩
  | remove h words len payload s t n _ hr hd hlen hpresent hstep ih =>
    obtain ⟨htally, hunf⟩ := ih
    obtain rfl := Effect.eq_of_step (i := .remC len payload) ⟨htally.accepts hlen, rfl⟩ hr hd hstep
    exact ⟨htally.remove hpresent, Bool.or_eq_false_iff.2 ⟨hunf, htally.remove_no_underflow hpresent⟩⟩
  | edge s t n _ hkeeps hstep ih =>
    obtain ⟨htally, hunf⟩ := ih
    obtain ⟨hc, hcnt, hunf'⟩ := step_unitC_kept hstep htally.live hkeeps
    rw [hc, hcnt, hunf']
    exact ⟨htally, hunf⟩

/-! ### The obligations of the counting filter -/

/-- Settles O36: the invariant gives the counters and `SUNF`, and a present item has no counter that is 0. -/
theorem honestUseHasNoFalseNegatives : Obligations.HonestUseHasNoFalseNegatives := by
  intro s n h
  obtain ⟨htally, hunf⟩ := h.holdsTally
  exact ⟨htally.counters, hunf, fun len p hlen hpresent =>
    exec_qryC_of_all_nonzero (htally.accepts hlen) fun i hi => htally.read_ne_zero hpresent hi⟩

/-- Settles O31: the effect of `INS.C`, and its two errors in their order. -/
theorem insCCountsUp : Obligations.InsCCountsUp := by
  intro len payload s
  refine ⟨fun hf => decode_of_encode (i := .insC len payload) hf rfl, fun ha => ?_, fun cfg hlen => ?_,
    fun hlen hc => ?_⟩
  · exact ⟨_, _, exec_of_effect (i := .insC len payload) ⟨ha, rfl⟩, rfl, fun j => read_incAll j _ _, incAll_flag_iff⟩
  · rw [insC, itemCommand_tooLong hlen, raise_eq, insCError_word.1]
  · rw [exec, execInsC, insC, itemCommand_unconstructed (u := .C) hlen hc, raise_eq, insCError_word.2]

/-- Settles O32: the two answers of the scan, and the two errors in their order. -/
theorem qryCAnswers : Obligations.QryCAnswers := by
  intro len payload s
  refine ⟨fun hf => decode_of_encode (i := .qryC len payload) hf rfl,
    fun ha => ⟨exec_qryC_of_all_nonzero ha, fun i => exec_qryC_of_first_zero ha⟩, fun cfg hlen => ?_, fun hlen hc => ?_⟩
  · rw [qryC, itemCommand_tooLong hlen, raise_eq, qryCError_word.1]
  · rw [exec, execQryC, qryC, itemCommand_unconstructed (u := .C) hlen hc, raise_eq, qryCError_word.2]

/-- Settles O33: the effect of `REM.C`, and its two errors in their order. -/
theorem remCCountsDown : Obligations.RemCCountsDown := by
  intro len payload s
  refine ⟨fun hf => decode_of_encode (i := .remC len payload) hf rfl, fun ha hwf => ?_, fun cfg hlen => ?_,
    fun hlen hc => ?_⟩
  · exact ⟨_, _, exec_of_effect (i := .remC len payload) ⟨ha, rfl⟩, rfl, fun j => read_decAll j _ hwf,
      decAll_flag_iff hwf⟩
  · rw [remC, itemCommand_tooLong hlen, raise_eq, remCError_word.1]
  · rw [exec, execRemC, remC, itemCommand_unconstructed (u := .C) hlen hc, raise_eq, remCError_word.2]

/-- Settles O34: the number of an item's index stands in the sequence at least once, so 15 inserts fill its counter. -/
theorem countersSaturate : Obligations.CountersSaturate := by
  refine ⟨fun len p s t j h => exec_insC_counter_le h j, fun len p s t j hwf h => exec_remC_counter_le hwf h j,
    fun len p n s t hwf ha hk hn h => ?_⟩
  obtain ⟨hc, hwf', -⟩ := h.counters ha
  have hfull : ∀ j ∈ indices Config.hw s.c (itemBytes len p), Memory.read t.cnt j = 15 := fun j => h.full ha hn
  have hfirst : idx Config.hw s.c (itemBytes len p) 0 ∈ indices Config.hw s.c (itemBytes len p) :=
    idx_mem_indices _ (by bv_omega)
  refine ⟨fun i hi => hfull _ (idx_mem_indices _ hi), _,
    exec_of_effect (i := .insC len p) ⟨ha.of_regs_eq hc, rfl⟩, ?_, ?_⟩
  · rw [hc]
    exact incAll_of_full (hwf' hwf) hfull
  · rw [successResponse, hc, incAll_flag_of_full hfirst (hfull _ hfirst)]
    rfl

/-- Settles O35: the remove undoes the loop of the insert, and the query reads the counters and registers of before. -/
theorem insertThenRemoveRestores : Obligations.InsertThenRemoveRestores := by
  intro len p s t hwf ha hins hrsp
  obtain rfl := Effect.eq_of_exec (i := .insC len p) ⟨ha, rfl⟩ hins
  have hsat : (incAll (indices Config.hw s.c (itemBytes len p)) s.cnt).2 = false :=
    Response.sat_eq_of_word_eq (Option.some.inj hrsp)
  obtain ⟨hcnt, hunf⟩ := decAll_incAll hwf hsat
  refine ⟨_, exec_of_effect (i := .remC len p) ⟨ha.of_regs_eq rfl, rfl⟩, hcnt, ?_, _, _, _,
    exec_qryC_congr ha rfl rfl, exec_qryC_congr ha rfl hcnt, rfl, rfl, fun ⟨i, hi, h0⟩ => res_qryC_of_zero hi h0⟩
  exact congrArg some (congrArg (fun b => Response.word { op := opRem, u := .C, unf := b, pk := s.c.k }) hunf)

end Sys2Proof.Machine

/-! SUPPORT. Proofs of the statements of the exceptions family: each error is answered by its code and changes nothing else
(spec/60_exceptions.md R200 to R210), the error of the lowest code is the one reported (R212), and when the core is ready
for a word (R219). -/

namespace Sys2Proof.Machine

/-! ### The checks of the header (R202, R203) -/

/-- A must-be-zero field of a legal opcode that is not zero fails the check (30_encoding R77). -/
theorem fieldsOk_eq_false {h : Word}
    (hbad : rsvOf h ≠ 0 ∨ ((opOf h).toNat = 1 ∧ lenOf h ≠ 0) ∨
      ((opOf h).toNat = 3 ∨ (opOf h).toNat = 4 ∨ (opOf h).toNat = 5) ∧ (kOf h ≠ 0 ∨ mOf h ≠ 0) ∨
      ((opOf h).toNat = 2 ∨ (opOf h).toNat = 6) ∧ (kOf h ≠ 0 ∨ lenOf h ≠ 0 ∨ mOf h ≠ 0)) : fieldsOk h = false := by
  rw [← Bool.not_eq_true]
  intro hok
  by_cases hc : opOf h = opCons
  · obtain ⟨hrsv, hlen⟩ := (fieldsOk_cons hc).1 hok
    have hop := (opCons_iff _).1 hc
    simp [hrsv, hlen, hop] at hbad
  · have hop := mt (opCons_iff _).2 hc
    cases hitem : opHasItem (opOf h) with
    | true =>
      obtain ⟨hrsv, hk, hm⟩ := (fieldsOk_item hc hitem).1 hok
      have hop := (opHasItem_iff _).1 hitem
      simp only [hrsv, hk, hm, ne_eq, not_true_eq_false, or_self, and_false, false_or] at hbad
      omega
    | false =>
      obtain ⟨hrsv, hk, hlen, hm⟩ := (fieldsOk_bare hc hitem).1 hok
      simp [hrsv, hk, hlen, hm] at hbad

/-- A header that fails a check of the decoder is answered by that check's code. -/
theorem step_of_illegalOpcode {s : State} {h : Word} {payload : List Word} (hr : Runs s h payload)
    (hop : opReserved (opOf h) = true) :
    step s = .next { onEdge s with
      rsp := some (Response.word { op := opOf h, u := unitOf h, code := errorNumber .illegalOpcode }) } := by
  have hd : decode h payload = .error .illegalOpcode := if_pos hop
  rw [step_of_runs hr, hd]
  rfl

theorem step_of_reservedField {s : State} {h : Word} {payload : List Word} (hr : Runs s h payload)
    (hop : opReserved (opOf h) = false) (hbad : fieldsOk h = false) :
    step s = .next { onEdge s with
      rsp := some (Response.word { op := opOf h, u := unitOf h, code := errorNumber .reservedField }) } := by
  have hd : decode h payload = .error .reservedField := by simp [decode, hop, hbad]
  rw [step_of_runs hr, hd]
  rfl

/-- All a command that runs can do when the step answers: raise an error, which changes the response alone, or be
decoded and have its effect (R200, R214). -/
theorem step_raises_or_succeeds {s t : State} {h : Word} {payload : List Word} (hr : Runs s h payload)
    (hstep : step s = .next t) :
    (∃ e, t = { onEdge s with
        rsp := some (Response.word { op := opOf h, u := unitOf h, code := errorNumber e }) }) ∨
      ∃ i t', decode h payload = .ok i ∧ Effect i (onEdge s) t' ∧
        t = { t' with rsp := some (successResponse i (onEdge s)).word } := by
  rw [step_of_runs hr] at hstep
  cases hd : decode h payload with
  | ok i =>
    rw [hd] at hstep
    rcases exec_cases hstep with ⟨e, rfl⟩ | ⟨t', he, rfl⟩
    · exact .inl ⟨e, by rw [raised, decode_opAndUnit hd]⟩
    · exact .inr ⟨i, t', rfl, he, rfl⟩
  | error d =>
    rw [hd] at hstep
    cases d with
    | illegalOpcode => cases hstep; exact .inl ⟨.illegalOpcode, rfl⟩
    | reservedField => cases hstep; exact .inl ⟨.reservedField, rfl⟩
    | payloadCount => cases hstep

/-! ### The error a command raises -/

/-- The error of a command on an item, if one applies (R205 before R206). -/
def itemError (u : UnitId) (len : BitVec 16) (s : State) : Option ErrorCode :=
  if Config.hw.itemMax < len.toNat then some .itemLen
  else if (s.regs u).constr = false then some .notConstructed
  else none

/-- The error a decoded command raises, if any: its checks in their order (R204 to R210). -/
def commandError : Instr → State → Option ErrorCode
  | .consB k m _ _, s => consCheck Config.hw .B k m s
  | .consC k m _ _, s => consCheck Config.hw .C k m s
  | .dstrB, s => if s.b.constr = false then some .notConstructed else none
  | .dstrC, s => if s.c.constr = false then some .notConstructed else none
  | .insB len _, s | .qryB len _, s => itemError .B len s
  | .insC len _, s | .qryC len _, s | .remC len _, s => itemError .C len s
  | .remB _ _, _ => some .noRemove
  | .statB, _ | .statC, _ => none

theorem itemCommand_of_itemError {op : BitVec 4} {u : UnitId} {len : BitVec 16} {payload : List Word} {s : State}
    {body : List Nat → Host.Outcome State Fault Refusal} {e : ErrorCode} (h : itemError u len s = some e) :
    itemCommand Config.hw op u len payload s body = raise op u e s := by
  unfold itemError at h
  split_ifs at h with hlen hc
  · cases h; exact itemCommand_tooLong hlen
  · cases h; exact itemCommand_unconstructed (Nat.not_lt.1 hlen) hc

theorem accepts_of_itemError {u : UnitId} {len : BitVec 16} {s : State} (hu : UnitOk u (s.regs u))
    (h : itemError u len s = none) : Accepts u len s := by
  unfold itemError at h
  split_ifs at h with hlen hc
  rw [Bool.not_eq_false] at hc
  obtain ⟨hm, hmax, -⟩ := hu hc
  exact ⟨hc, sizeOk_iff.2 ⟨hm, hmax⟩, Nat.not_lt.1 hlen⟩

/-- `commandError` is the error that the machine's command raises. -/
theorem exec_of_commandError {i : Instr} {s : State} {e : ErrorCode} (h : commandError i s = some e) :
    exec i s = .next (raised i e s) := by
  cases i with
  | consB k m x y =>
    have hc : consCheck Config.hw .B k m s = some e := h
    rw [exec, execConsB, consB, hc]; rfl
  | consC k m x y =>
    have hc : consCheck Config.hw .C k m s = some e := h
    rw [exec, execConsC, consC, hc]; rfl
  | dstrB =>
    obtain ⟨hc, rfl⟩ : s.b.constr = false ∧ ErrorCode.notConstructed = e := by simpa [commandError] using h
    rw [exec, execDstrB, hc]; rfl
  | dstrC =>
    obtain ⟨hc, rfl⟩ : s.c.constr = false ∧ ErrorCode.notConstructed = e := by simpa [commandError] using h
    rw [exec, execDstrC, hc]; rfl
  | insB | qryB =>
    simp only [exec, execInsB, execQryB, insB, qryB]
    exact itemCommand_of_itemError h
  | insC | qryC | remC =>
    simp only [exec, execInsC, execQryC, execRemC, insC, qryC, remC]
    exact itemCommand_of_itemError h
  | remB => cases h; rfl
  | statB | statC => cases h

/-- A command that raises no error has its effect, where a constructed unit has a size its array can have. -/
theorem effect_of_commandError {i : Instr} {s : State} (hB : UnitOk .B s.b) (hC : UnitOk .C s.c)
    (h : commandError i s = none) : ∃ t, Effect i s t := by
  cases i with
  | consB | consC => exact ⟨_, consCheck_eq_none.1 h, rfl⟩
  | dstrB | dstrC => exact ⟨_, by simpa [commandError] using h, rfl⟩
  | insB | qryB => exact ⟨_, accepts_of_itemError hB h, rfl⟩
  | insC | qryC | remC => exact ⟨_, accepts_of_itemError hC h, rfl⟩
  | remB => cases h
  | statB | statC => exact ⟨_, rfl⟩

/-! ### The table of R212, operation by operation -/

section
variable {h : Word} {s : State} {e : ErrorCode}

theorem errorApplies_cons (ho : opOf h = opCons) (hok : fieldsOk h = true) :
    errorApplies h s e ↔ (e = .alreadyConstructed ∧ (s.regs (unitOf h)).constr = true) ∨ (e = .zeroBits ∧ mOf h = 0) ∨
      (e = .zeroHashes ∧ kOf h = 0) ∨ (e = .capacity ∧ Config.hw.mMax (unitOf h) < (mOf h).toNat) := by
  cases e <;> simp [errorApplies, ho, hok, opCons, BitVec.toNat_eq]

theorem errorApplies_dstr (ho : opOf h = opDstr) (hok : fieldsOk h = true) :
    errorApplies h s e ↔ e = .notConstructed ∧ (s.regs (unitOf h)).constr = false := by
  cases e <;> simp [errorApplies, ho, hok, opDstr]

theorem errorApplies_item (ho : opHasItem (opOf h) = true) (hok : fieldsOk h = true) :
    errorApplies h s e ↔ (e = .noRemove ∧ opOf h = opRem ∧ unitOf h = .B) ∨
      (e = .itemLen ∧ Config.hw.itemMax < (lenOf h).toNat) ∨
      (e = .notConstructed ∧ (s.regs (unitOf h)).constr = false) := by
  have hop := (opHasItem_iff _).1 ho
  cases e <;> simp [errorApplies, hok, opRem, BitVec.toNat_eq] <;> omega

theorem not_errorApplies_stat (ho : opOf h = opStat) (hok : fieldsOk h = true) : ¬ errorApplies h s e := by
  cases e <;> simp [errorApplies, ho, hok, opStat]
end

/-! ### The lowest code (R212) -/

/-- The error of the table that is to be reported: the one of the lowest code, or none where none applies. -/
def IsLowestError (h : Word) (s : State) : Option ErrorCode → Prop
  | none => ∀ e, ¬ errorApplies h s e
  | some e => errorApplies h s e ∧ ∀ e', errorApplies h s e' → (errorNumber e).toNat ≤ (errorNumber e').toNat

theorem errorApplies_onEdge {h : Word} {s : State} {e : ErrorCode} :
    errorApplies h (onEdge s) e ↔ errorApplies h s e := by
  have hregs : (onEdge s).regs (unitOf h) = s.regs (unitOf h) := by cases unitOf h <;> rfl
  cases e <;> simp only [errorApplies, hregs]

theorem isLowestError_onEdge {h : Word} {s : State} {o : Option ErrorCode} :
    IsLowestError h (onEdge s) o ↔ IsLowestError h s o := by
  cases o <;> simp only [IsLowestError, errorApplies_onEdge]

section
variable {h : Word} {s : State}

theorem isLowestError_illegalOpcode (hop : opReserved (opOf h) = true) : IsLowestError h s (some .illegalOpcode) :=
  ⟨(opReserved_iff _).1 hop, fun e' _ => by cases e' <;> decide⟩

theorem isLowestError_reservedField (hop : opReserved (opOf h) = false) (hbad : fieldsOk h = false) :
    IsLowestError h s (some .reservedField) := by
  have hlegal := (opReserved_eq_false_iff _).1 hop
  refine ⟨⟨hlegal, hbad⟩, fun e' he' => ?_⟩
  cases e' with
  | illegalOpcode => simp only [errorApplies] at he'; omega
  | _ => decide

/-- The checks of `CONS` stand in the order of their codes. -/
theorem isLowestError_consCheck (ho : opOf h = opCons) (hok : fieldsOk h = true) :
    IsLowestError h s (consCheck Config.hw (unitOf h) (kOf h) (mOf h) s) := by
  unfold consCheck
  split_ifs with hcon hm hk hmax
  · simp [IsLowestError, errorApplies_cons ho hok, or_imp, forall_and, errorNumber, hcon]
  · simp [IsLowestError, errorApplies_cons ho hok, or_imp, forall_and, errorNumber, hcon, hm]
  · simpa [IsLowestError, errorApplies_cons ho hok, or_imp, forall_and, errorNumber, hcon, hk] using hm
  · simpa [IsLowestError, errorApplies_cons ho hok, or_imp, forall_and, errorNumber, hcon, hmax] using ⟨hm, hk⟩
  · simpa [IsLowestError, errorApplies_cons ho hok, hcon, hmax] using fun e => ⟨fun _ => hm, fun _ => hk⟩

/-- The checks of a command on an item other than `REM.B` stand in the order of their codes. -/
theorem isLowestError_itemError (ho : opHasItem (opOf h) = true) (hok : fieldsOk h = true)
    (hrem : ¬ (opOf h = opRem ∧ unitOf h = .B)) : IsLowestError h s (itemError (unitOf h) (lenOf h) s) := by
  unfold itemError
  split_ifs with hlen hcon
  · simp [IsLowestError, errorApplies_item ho hok, or_imp, forall_and, errorNumber, hrem, hlen]
  · simp [IsLowestError, errorApplies_item ho hok, errorNumber, hrem, hlen, hcon]
  · simp [IsLowestError, errorApplies_item ho hok, hrem, hlen, hcon]

theorem isLowestError_noRemove (hok : fieldsOk h = true) (ho : opOf h = opRem) (hu : unitOf h = .B) :
    IsLowestError h s (some .noRemove) := by
  have hitem : opHasItem (opOf h) = true := by rw [ho]; decide
  simp [IsLowestError, errorApplies_item hitem hok, or_imp, forall_and, errorNumber, ho, hu]

theorem isLowestError_dstr (ho : opOf h = opDstr) (hok : fieldsOk h = true) :
    IsLowestError h s (if (s.regs (unitOf h)).constr = false then some .notConstructed else none) := by
  split_ifs with hcon
  · simp [IsLowestError, errorApplies_dstr ho hok, hcon]
  · simp [IsLowestError, errorApplies_dstr ho hok, hcon]

/-- The error a decoded command raises is the one the table asks for. -/
theorem isLowestError_commandError {payload : List Word} {i : Instr} (hd : decode h payload = .ok i) :
    IsLowestError h s (commandError i s) := by
  obtain ⟨-, hok, hfields⟩ := decode_fields hd
  have hou := decode_opAndUnit hd
  cases i with
  | consB | consC =>
    obtain ⟨ho, hu⟩ := Prod.mk.inj hou
    obtain ⟨rfl, rfl⟩ := hfields
    rw [commandError, hu]
    exact isLowestError_consCheck ho.symm hok
  | dstrB | dstrC =>
    obtain ⟨ho, hu⟩ := Prod.mk.inj hou
    have hlow := isLowestError_dstr (s := s) ho.symm hok
    rwa [← hu] at hlow
  | insB | insC | qryB | qryC | remC =>
    obtain ⟨ho, hu⟩ := Prod.mk.inj hou
    obtain ⟨rfl, rfl⟩ := hfields
    rw [commandError, hu]
    exact isLowestError_itemError (by rw [← ho]; decide) hok (by rw [← ho, ← hu]; decide)
  | remB =>
    obtain ⟨ho, hu⟩ := Prod.mk.inj hou
    exact isLowestError_noRemove hok ho.symm hu.symm
  | statB | statC =>
    obtain ⟨ho, -⟩ := Prod.mk.inj hou
    exact fun e => not_errorApplies_stat ho.symm hok
end

/-- The code of the response is that of `commandError`, 0 where there is none. -/
theorem exec_code {i : Instr} {s : State} (hB : UnitOk .B s.b) (hC : UnitOk .C s.c) :
    ∃ t r, exec i s = .next t ∧ t.rsp = some r ∧ codeOf r = (commandError i s).elim 0 errorNumber := by
  cases he : commandError i s with
  | some e => exact ⟨_, _, exec_of_commandError he, rfl, codeOf_word _⟩
  | none =>
    obtain ⟨t, ht⟩ := effect_of_commandError hB hC he
    exact ⟨_, _, exec_of_effect ht, rfl, (codeOf_word _).trans (successResponse_fields i s).2.2⟩

/-- A command that runs answers the error that the table asks for. -/
theorem step_reports_lowestError {s : State} {h : Word} {payload : List Word} (hs : Inv s) (hr : Runs s h payload) :
    ∃ t r o, step s = .next t ∧ t.rsp = some r ∧ codeOf r = Option.elim o 0 errorNumber ∧ IsLowestError h s o := by
  obtain ⟨⟨hB, -⟩, ⟨hC, -⟩, hf, -⟩ := inv_iff.1 hs
  rcases decode_cases (hr.payload_length hf) with ⟨hop, -⟩ | ⟨hop, hbad, -⟩ | ⟨-, -, i, hd⟩
  · exact ⟨_, _, _, step_of_illegalOpcode hr hop, rfl, codeOf_word _, isLowestError_illegalOpcode hop⟩
  · exact ⟨_, _, _, step_of_reservedField hr hop hbad, rfl, codeOf_word _, isLowestError_reservedField hop hbad⟩
  · obtain ⟨t, r, hexec, hrsp, hcode⟩ := exec_code (i := i) (s := onEdge s) hB hC
    exact ⟨t, r, _, by rw [step_of_runs hr, hd]; exact hexec, hrsp, hcode,
      isLowestError_onEdge.1 (isLowestError_commandError hd)⟩

/-! ### The obligations -/

/-- Settles O18: the two cases are whether the table names an error. -/
theorem lowestErrorCodeIsReported : Obligations.LowestErrorCodeIsReported := by
  intro s h payload hs hr
  obtain ⟨t, r, o, hstep, hrsp, hcode, hlow⟩ := step_reports_lowestError hs hr
  cases o with
  | none => exact ⟨t, r, hstep, hrsp, .inl ⟨hcode, hlow⟩⟩
  | some e => exact ⟨t, r, hstep, hrsp, .inr ⟨e, hcode, hlow⟩⟩

/-- Settles O17: a response whose code is not 0 is no success. -/
theorem errorsChangeNothingElse : Obligations.ErrorsChangeNothingElse := by
  intro s t h payload r hr hstep hrsp hcode
  rcases step_raises_or_succeeds hr hstep with ⟨e, rfl⟩ | ⟨i, t', -, -, rfl⟩
  · cases hrsp
    exact ⟨rfl, rfl, by rw [codeOf_word]⟩
  · cases hrsp
    obtain ⟨-, -, hzero⟩ := successResponse_fields i (onEdge s)
    exact absurd ((codeOf_word _).trans hzero) hcode

/-- The response words of the headers that the spec works out (R202, R203). -/
theorem workedHeader_words :
    Response.word { op := opOf 0x0, u := unitOf 0x0, code := 1 } = 0x0001000000000000 ∧
    Response.word { op := opOf 0xf800000000000000, u := unitOf 0xf800000000000000, code := 1 } = 0xf801000000000000 ∧
    Response.word { op := opOf 0x6000000000000001, u := unitOf 0x6000000000000001, code := 2 } = 0x6002000000000000 := by
  decide

/-- Settles O10: the decoder's first check, whatever the other fields are. -/
theorem illegalOpcodeIsAnswered : Obligations.IllegalOpcodeIsAnswered := by
  obtain ⟨hzero, hfifteen, -⟩ := workedHeader_words
  refine ⟨fun s h payload hr hop => ⟨?_, step_of_illegalOpcode hr ((opReserved_iff _).2 hop)⟩,
    fun s payload hr => ?_, fun s payload hr => ?_⟩
  · rw [payloadWords_eq, if_neg (by omega), if_neg (by omega)]
  · rw [← hzero]
    exact step_of_illegalOpcode hr (by decide)
  · rw [← hfifteen]
    exact step_of_illegalOpcode hr (by decide)

/-- Settles O11: the decoder's second check. -/
theorem reservedFieldIsAnswered : Obligations.ReservedFieldIsAnswered := by
  obtain ⟨-, -, hstat⟩ := workedHeader_words
  refine ⟨fun s h payload hr hlow hhigh hbad => ?_, payloadWords_eq, fun s payload hr => ?_⟩
  · exact step_of_reservedField hr ((opReserved_eq_false_iff _).2 ⟨hlow, hhigh⟩) (fieldsOk_eq_false hbad)
  · rw [← hstat]
    exact step_of_reservedField hr (by decide) (by decide)

theorem remBError_word : Response.word { op := opRem, u := .B, code := errorNumber .noRemove } = 0x5003000000000000 := by
  decide

/-- Settles O12: `REM.B` decodes as any command on an item and raises its error at once. -/
theorem remBIsRefusedByItsCode : Obligations.RemBIsRefusedByItsCode := by
  intro len payload s
  refine ⟨fun hf => decode_of_encode (i := .remB len payload) hf rfl, ?_, ?_⟩
  · simp [payloadWords_eq]
  · rw [exec, execRemB, raise_eq, remBError_word]

/-- Settles O13 from the statements about each command on an item. -/
theorem longItemIsAnswered : Obligations.LongItemIsAnswered := by
  refine ⟨fun cfg len payload s hlen => ?_, fun len payload s => ⟨rfl, rfl, rfl, rfl, rfl⟩⟩
  obtain ⟨-, -, hinsB, -⟩ := insBSetsTheBits len payload s
  obtain ⟨-, -, hqryB, -⟩ := qryBAnswers len payload s
  obtain ⟨-, -, hinsC, -⟩ := insCCountsUp len payload s
  obtain ⟨-, -, hqryC, -⟩ := qryCAnswers len payload s
  obtain ⟨-, -, hremC, -⟩ := remCCountsDown len payload s
  exact ⟨hinsB cfg hlen, hqryB cfg hlen, hinsC cfg hlen, hqryC cfg hlen, hremC cfg hlen⟩

/-- Settles O14 from the statements about each command on an item and about `DSTR`. -/
theorem unconstructedUnitIsAnswered : Obligations.UnconstructedUnitIsAnswered := by
  intro len payload s
  obtain ⟨-, -, -, hinsB⟩ := insBSetsTheBits len payload s
  obtain ⟨-, -, -, hqryB⟩ := qryBAnswers len payload s
  obtain ⟨-, -, -, hinsC⟩ := insCCountsUp len payload s
  obtain ⟨-, -, -, hqryC⟩ := qryCAnswers len payload s
  obtain ⟨-, -, -, hremC⟩ := remCCountsDown len payload s
  obtain ⟨-, -, -, -, hdstrB, hdstrC⟩ := destroyEndsTheLifetime s
  exact ⟨fun hc => ⟨hdstrB hc, fun hlen => ⟨hinsB hlen hc, hqryB hlen hc⟩⟩,
    fun hc => ⟨hdstrC hc, fun hlen => ⟨hinsC hlen hc, hqryC hlen hc, hremC hlen hc⟩⟩⟩

/-- The error words of `CONS.B` (R207 to R210). -/
theorem consBError_word :
    Response.word { op := 1, u := .B, code := 6 } = 0x1006000000000000 ∧
    Response.word { op := 1, u := .B, code := 7 } = 0x1007000000000000 ∧
    Response.word { op := 1, u := .B, code := 8 } = 0x1008000000000000 ∧
    Response.word { op := 1, u := .B, code := 9 } = 0x1009000000000000 := by decide

/-- The error words of `CONS.C` (R207 to R210). -/
theorem consCError_word :
    Response.word { op := 1, u := .C, code := 6 } = 0x1806000000000000 ∧
    Response.word { op := 1, u := .C, code := 7 } = 0x1807000000000000 ∧
    Response.word { op := 1, u := .C, code := 8 } = 0x1808000000000000 ∧
    Response.word { op := 1, u := .C, code := 9 } = 0x1809000000000000 := by decide

/-- Settles O15: the first check of `CONS`. -/
theorem secondConstructionIsAnswered : Obligations.SecondConstructionIsAnswered := by
  intro k m x y s
  obtain ⟨-, -, hB, hexecB⟩ := consBConstructs k m x y s
  obtain ⟨-, -, hC, hexecC⟩ := consCConstructs k m x y s
  obtain ⟨hwordB, -⟩ := consBError_word
  obtain ⟨hwordC, -⟩ := consCError_word
  refine ⟨fun hc => ?_, fun hc => ?_⟩
  · rw [hexecB, hB _ (.inl hc), if_pos hc, hwordB]
  · rw [hexecC, hC _ (.inl hc), if_pos hc, hwordC]

/-- Settles O16: the later checks of `CONS`, in their order. -/
theorem badSizeIsAnswered : Obligations.BadSizeIsAnswered := by
  intro k m x y s
  obtain ⟨-, -, hB, hexecB⟩ := consBConstructs k m x y s
  obtain ⟨-, -, hC, hexecC⟩ := consCConstructs k m x y s
  obtain ⟨-, hB7, hB8, hB9⟩ := consBError_word
  obtain ⟨-, hC7, hC8, hC9⟩ := consCError_word
  refine ⟨fun hc => ⟨fun hm => ?_, fun hm hk => ?_, fun cfg hm hk hmax => ?_⟩,
    fun hc => ⟨fun hm => ?_, fun hm hk => ?_, fun cfg hm hk hmax => ?_⟩, hexecB, hexecC⟩
  · rw [hexecB, hB _ (.inr (.inl hm)), hc, if_neg Bool.false_ne_true, if_pos hm, hB7]
  · rw [hexecB, hB _ (.inr (.inr (.inl hk))), hc, if_neg Bool.false_ne_true, if_neg hm, if_pos hk, hB8]
  · rw [hB cfg (.inr (.inr (.inr hmax))), hc, if_neg Bool.false_ne_true, if_neg hm, if_neg hk, hB9]
  · rw [hexecC, hC _ (.inr (.inl hm)), hc, if_neg Bool.false_ne_true, if_pos hm, hC7]
  · rw [hexecC, hC _ (.inr (.inr (.inl hk))), hc, if_neg Bool.false_ne_true, if_neg hm, if_pos hk, hC8]
  · rw [hC cfg (.inr (.inr (.inr hmax))), hc, if_neg Bool.false_ne_true, if_neg hm, if_neg hk, hC9]

/-- Settles O46: with no command begun, the invariant leaves no work to do. -/
theorem idleCoreIsReady : Obligations.IdleCoreIsReady := by
  intro s hs
  obtain ⟨-, -, -, hstall, -⟩ := inv_iff.1 hs
  refine ⟨fun hfront hrsp => ?_, fun hcomplete => ?_⟩
  · simp [cmdReady, hstall hfront, hfront, hrsp, frontComplete]
  · simp [cmdReady, hcomplete]

end Sys2Proof.Machine

/-! SUPPORT. Proofs of the statements of the reset and hazards family: the reset edge (spec/70_reset_and_hazards.md R240 to
R242), the host's duty (R250), and that every command ends (R251). -/

namespace Sys2Proof.Machine

/-! ### The branches of a step at which nothing is transferred -/

theorem step_of_rst {s : State} (h : (nextEdge s).rst = true) : step s = .next (resetEdge s) := if_pos h

theorem step_of_hostBreach {s : State} (h1 : (nextEdge s).rst = false) (h2 : hostBreach s (nextEdge s) = true) :
    step s = .refused .hostWordChanged := by
  unfold step
  rw [if_neg (by simp [h1]), if_pos h2]

/-- The host breaks its duty exactly when the word it presented, not taken yet, is not there unchanged and no reset ends
the duty (R250). -/
theorem hostBreach_iff {s : State} {e : Edge} :
    hostBreach s e = true ↔ e.rst = false ∧ ∃ w, s.held = some w ∧ (e.cmdValid = false ∨ e.cmdData ≠ w) := by
  unfold hostBreach
  cases s.held with
  | none => simp
  | some w => cases e.cmdValid <;> simp

/-! ### A command on its way to its response -/

/-- A run whose first step answers goes on from that answer. -/
theorem run_succ_of_step (M : Host.Core) {s t : M.State} (h : M.step s = .next t) (n : Nat) :
    M.run (n + 1) s = M.run n t := by
  rw [Host.Core.run, h]

/-- The step at which the words of a command run takes them out of the front end (10_state R33). -/
theorem step_empties_front {s t : State} {h : Word} {payload : List Word} (hr : Runs s h payload)
    (hstep : step s = .next t) : t.front = none := by
  rw [step_of_runs hr] at hstep
  cases hd : decode h payload with
  | ok i =>
    rw [hd] at hstep
    obtain ⟨⟨hfront, -⟩, -⟩ := exec_ports hstep
    exact hfront.symm
  | error d =>
    rw [hd] at hstep
    cases d with
    | illegalOpcode | reservedField => cases hstep; rfl
    | payloadCount => cases hstep

/-- With its last word taken, no work left and room for the response, a command is answered at the coming edge. -/
theorem step_answers_complete {s : State} {p : PartialCommand} (hs : Inv s) (hfront : s.front = some p)
    (howed : p.owed = 0) (hrsp : s.rsp = none) (hstall : s.stall = 0) (hrst : (nextEdge s).rst = false)
    (hkeep : hostBreach s (nextEdge s) = false) : ∃ t, step s = .next t ∧ t.front = none ∧ t.rsp ≠ none := by
  obtain ⟨h, payload, owed⟩ := p
  cases howed
  have hr : Runs s h payload := ⟨hrst, hkeep, readyCommand_eq_some.2 ⟨hfront, hstall, hrsp⟩⟩
  obtain ⟨t, ht⟩ := step_answers_of_runs hs hr
  obtain ⟨-, r, htrsp, -⟩ := step_echoes hr ht
  exact ⟨t, ht, step_empties_front hr ht, by simp [htrsp]⟩

theorem readyCommand_of_busy {s : State} (h : s.stall ≠ 0) : readyCommand s = none := by
  rw [Option.eq_none_iff_forall_ne_some]
  rintro ⟨hd, payload⟩ he
  obtain ⟨-, hstall, -⟩ := readyCommand_eq_some.1 he
  exact h hstall

/-- A busy core that holds a complete command takes no word (log entry 6): its edge is one of its own work. -/
theorem step_works_on_complete {s : State} {p : PartialCommand} {n : Nat} (hfront : s.front = some p)
    (howed : p.owed = 0) (hrsp : s.rsp = none) (hstall : s.stall = n + 1) (hrst : (nextEdge s).rst = false)
    (hkeep : hostBreach s (nextEdge s) = false) :
    ∃ t, step s = .next t ∧ t.front = some p ∧ t.rsp = none ∧ t.stall = n := by
  have hw : ¬ wordTransfers s (nextEdge s) = true := fun hw => by
    have hc := frontComplete_of_wordTransfers hw
    simp [hfront, frontComplete, howed] at hc
  refine ⟨_, step_of_quiet hrst hkeep (readyCommand_of_busy (by simp [hstall])), ?_, ?_, ?_⟩
  · rw [transfer_front, if_neg hw, hfront]
  · rw [transfer_rsp, hrsp, ite_self]
  · rw [transfer_stall, if_neg hw, hstall, Nat.add_sub_cancel]

/-! ### The obligations -/

/-- Settles O47, by induction on the work left: each of its edges takes one off and keeps the command, and the edge after
the last executes it. -/
theorem everyCommandEnds : Obligations.EveryCommandEnds := by
  intro s p hs hfront howed hrsp hkeeps
  generalize hn : s.stall = n at hkeeps ⊢
  induction n generalizing s with
  | zero =>
    obtain ⟨hrst, hkeep, -⟩ := hkeeps
    obtain ⟨t, ht, hanswer⟩ := step_answers_complete hs hfront howed hrsp hn hrst hkeep
    exact ⟨t, run_succ_of_step core ht 0, hanswer⟩
  | succ n ih =>
    obtain ⟨hrst, hkeep, hlater⟩ := hkeeps
    obtain ⟨u, hu, hufront, hursp, hustall⟩ := step_works_on_complete hfront howed hrsp hn hrst hkeep
    rw [run_succ_of_step core hu]
    exact ih u (stepKeepsTheInvariant s u hs hu) hufront hursp hustall (hlater u hu)

/-- Settles O42: the reset branch of `step`, and both transfers ask for an edge without reset. -/
theorem resetEdgeUnconstructs : Obligations.ResetEdgeUnconstructs := by
  intro s hrst
  exact ⟨step_of_rst hrst, by simp [wordTransfers, hrst], by simp [responseTransfers, hrst]⟩

/-- Settles O45: the dropped or changed word is a breach, and a breach is refused. -/
theorem hostBreachIsRefused : Obligations.HostBreachIsRefused := by
  intro s w hheld hrst hpins
  exact step_of_hostBreach hrst (hostBreach_iff.2 ⟨hrst, w, hheld, hpins⟩)

end Sys2Proof.Machine
